-- ==== Sys2Proof/Word.lean ====
section
/-! DEFINITION. The two word types of the machine (00_scope.md rules R4, R7). -/

namespace Sys2Proof

/-- A data byte or a general register: XLEN = 8 bits (R4, R7). -/
abbrev Byte := BitVec 8

/-- An address or the program counter: ALEN = 16 bits (R4, R7). -/
abbrev Addr := BitVec 16

end Sys2Proof
end

