-- ==== Sys2Proof/Config.lean ====
section
/-! DEFINITION. The widths and addresses that the source fixes, and the parameters that it leaves open (00_scope.md rule
R4). The values the core runs at are `Sys2Proof.Machine.params` (Machine/Operands.lean). -/

namespace Sys2Proof

/-- `NEG_MODE` (R4, R18, R30): how the Negative flag is computed. -/
inductive NegMode where
  /-- `BIT7`: the flag is bit 7 of the value (the default). -/
  | bit7
  /-- `NEVER`: the flag is always written 0. -/
  | never
  deriving DecidableEq, Repr

/-- `ABS_WIDTH` (R4, R103): the width the Absolute effective address keeps. -/
inductive AbsWidth where
  /-- `16`: the full address (the default). -/
  | full
  /-- `8`: the low byte only. -/
  | low
  deriving DecidableEq, Repr

/-- `JREL` (R4, R144): what a taken JPC, JPZ or JPN adds to the PC. -/
inductive JRel where
  /-- `ZEXT_BYTE`: the operand byte, zero-extended (the default). -/
  | zextByte
  /-- `SEXT_BYTE`: the operand byte, sign-extended. -/
  | sextByte
  /-- `ADDRESS`: the operand address itself. -/
  | address
  deriving DecidableEq, Repr

/-- The machine's parameters but `IMAGE`, which is an argument of construction (R4). The Instruction Table is a
constant of the machine (R26), a total map on the 256 raw bytes (R75). -/
structure Params where
  itab : Byte → Byte
  negMode : NegMode
  absWidth : AbsWidth
  jrel : JRel

namespace Config

/-- MEMSIZE (R4, R40). -/
def memSize : Nat := 65536

/-- STACK_BASE (R4, R23). -/
def stackBase : Addr := 0x0100

/-- RESET_VEC, the address of its low byte (R4, R190). -/
def resetVecLow : Addr := 0xFFFC

/-- RESET_VEC, the address of its high byte (R4, R190). -/
def resetVecHigh : Addr := 0xFFFD

/-- IRQ_VEC, the address of its low byte (R4, R110). -/
def irqVecLow : Addr := 0xFFFE

/-- IRQ_VEC, the address of its high byte (R4, R110). -/
def irqVecHigh : Addr := 0xFFFF

/-- SP_RESET (R4, R31). -/
def spReset : Byte := 0xFD

end Config
end Sys2Proof
end

