-- ==== Sys2Proof/Syntax.lean ====
section
/-! DEFINITION. The instruction set as syntax: one constructor of `Instr` for each mnemonic of spec/opcode_table.json
(30_encoding.md rules R72 to R74, R78, R82, R84), and an assembly line, an instruction with its operand (R82). -/

namespace Sys2Proof

/-- The register field's three values (R10, R74); index 3 does not exist (R11). -/
inductive Reg where
  | r0 | r1 | r2
  deriving DecidableEq, Repr

/-- The three addressing modes (R73). -/
inductive Mode where
  | absolute | immediate | implied
  deriving DecidableEq, Repr

/-- The thirteen mnemonics (R72). -/
inductive Op where
  | brk | ld | st | add | jmp | jpc | jpz | jpn | ph | pl | and | xor | clc
  deriving DecidableEq, Repr

/-- One constructor per mnemonic of spec/opcode_table.json. `r` is the register field, which BRK, JMP, JPC, JPZ, JPN and
CLC carry and ignore (R81). An operand byte is no part of the decoded instruction: the decoder reads the raw byte alone
(R70), and the resolver reads operand bytes from memory (R103 to R105). -/
inductive Instr where
  /-- `BRK.abs` (R110). -/
  | brkAbs (r : Reg)
  /-- `LD.abs` (R120). -/
  | ldAbs (r : Reg)
  /-- `ST.abs` (R121). -/
  | stAbs (r : Reg)
  /-- `ADD.abs` (R130). -/
  | addAbs (r : Reg)
  /-- `JMP.abs` (R140). -/
  | jmpAbs (r : Reg)
  /-- `JPC.abs` (R141). -/
  | jpcAbs (r : Reg)
  /-- `JPZ.abs` (R142). -/
  | jpzAbs (r : Reg)
  /-- `JPN.abs` (R143). -/
  | jpnAbs (r : Reg)
  /-- `PH.abs` (R150). -/
  | phAbs (r : Reg)
  /-- `PL.abs` (R151). -/
  | plAbs (r : Reg)
  /-- `AND.abs` (R160). -/
  | andAbs (r : Reg)
  /-- `XOR.abs` (R161). -/
  | xorAbs (r : Reg)
  /-- `CLC.abs` (R162). -/
  | clcAbs (r : Reg)
  /-- `ILLEGAL`: a raw byte that is no legal encoding; it executes as `BRK.abs R0` (R78). -/
  | illegal (raw : Byte)
  /-- `BRK.imm` (R110). -/
  | brkImm (r : Reg)
  /-- `LD.imm` (R120). -/
  | ldImm (r : Reg)
  /-- `ST.imm` (R121). -/
  | stImm (r : Reg)
  /-- `ADD.imm` (R130). -/
  | addImm (r : Reg)
  /-- `JMP.imm` (R140). -/
  | jmpImm (r : Reg)
  /-- `JPC.imm` (R141). -/
  | jpcImm (r : Reg)
  /-- `JPZ.imm` (R142). -/
  | jpzImm (r : Reg)
  /-- `JPN.imm` (R143). -/
  | jpnImm (r : Reg)
  /-- `PH.imm` (R150). -/
  | phImm (r : Reg)
  /-- `PL.imm` (R151). -/
  | plImm (r : Reg)
  /-- `AND.imm` (R160). -/
  | andImm (r : Reg)
  /-- `XOR.imm` (R161). -/
  | xorImm (r : Reg)
  /-- `CLC.imm` (R162). -/
  | clcImm (r : Reg)
  /-- `BRK.imp` (R110). -/
  | brkImp (r : Reg)
  /-- `LD.imp` (R120). -/
  | ldImp (r : Reg)
  /-- `ST.imp` (R121). -/
  | stImp (r : Reg)
  /-- `ADD.imp` (R130). -/
  | addImp (r : Reg)
  /-- `JMP.imp` (R140). -/
  | jmpImp (r : Reg)
  /-- `JPC.imp` (R141). -/
  | jpcImp (r : Reg)
  /-- `JPZ.imp` (R142). -/
  | jpzImp (r : Reg)
  /-- `JPN.imp` (R143). -/
  | jpnImp (r : Reg)
  /-- `PH.imp` (R150). -/
  | phImp (r : Reg)
  /-- `PL.imp` (R151). -/
  | plImp (r : Reg)
  /-- `AND.imp` (R160). -/
  | andImp (r : Reg)
  /-- `XOR.imp` (R161). -/
  | xorImp (r : Reg)
  /-- `CLC.imp` (R162). -/
  | clcImp (r : Reg)
  deriving DecidableEq, Repr

/-- The addressing mode in an instruction's name (R82); ILLEGAL has the format `F_ABS` (R78, R84). -/
def Instr.mode : Instr → Mode
  | .brkAbs _ => .absolute
  | .ldAbs _ => .absolute
  | .stAbs _ => .absolute
  | .addAbs _ => .absolute
  | .jmpAbs _ => .absolute
  | .jpcAbs _ => .absolute
  | .jpzAbs _ => .absolute
  | .jpnAbs _ => .absolute
  | .phAbs _ => .absolute
  | .plAbs _ => .absolute
  | .andAbs _ => .absolute
  | .xorAbs _ => .absolute
  | .clcAbs _ => .absolute
  | .brkImm _ => .immediate
  | .ldImm _ => .immediate
  | .stImm _ => .immediate
  | .addImm _ => .immediate
  | .jmpImm _ => .immediate
  | .jpcImm _ => .immediate
  | .jpzImm _ => .immediate
  | .jpnImm _ => .immediate
  | .phImm _ => .immediate
  | .plImm _ => .immediate
  | .andImm _ => .immediate
  | .xorImm _ => .immediate
  | .clcImm _ => .immediate
  | .brkImp _ => .implied
  | .ldImp _ => .implied
  | .stImp _ => .implied
  | .addImp _ => .implied
  | .jmpImp _ => .implied
  | .jpcImp _ => .implied
  | .jpzImp _ => .implied
  | .jpnImp _ => .implied
  | .phImp _ => .implied
  | .plImp _ => .implied
  | .andImp _ => .implied
  | .xorImp _ => .implied
  | .clcImp _ => .implied
  | .illegal _ => .absolute

/-- The operand of an assembly line (R82). -/
inductive Operand where
  /-- `0xhhhh`, of an Absolute instruction; emitted low byte first. -/
  | address (a : Addr)
  /-- `#0xhh`, of an Immediate instruction. -/
  | value (v : Byte)
  /-- None, of an Implied instruction. -/
  | nothing
  deriving DecidableEq, Repr

/-- An assembly line: an instruction and its operand bytes (R79, R82). -/
structure Asm where
  instr : Instr
  operand : Operand
  deriving DecidableEq, Repr

end Sys2Proof
end

