-- ==== Sys2Proof/WellFormed.lean ====
section
/-! DEFINITION. Which terms of the syntax stand for something in memory. Written from rule R78's own list of illegal bytes,
apart from the decoder, which is written from rule R76. -/

namespace Sys2Proof

/-- The 139 illegal raw bytes as R78 lists them: low nibble D, E or F; high nibble 3, 7 or B; 0xC0 to 0xFF. -/
def illegalByte (b : Byte) : Bool :=
  0xD ≤ b.toNat % 16 || b.toNat / 16 == 0x3 || b.toNat / 16 == 0x7 || b.toNat / 16 == 0xB || 0xC0 ≤ b.toNat

/-- ILLEGAL stands for an illegal byte only; every register value of the other constructors is encodable (R76). -/
def Instr.wf : Instr → Bool
  | .illegal raw => illegalByte raw
  | .brkAbs _ | .ldAbs _ | .stAbs _ | .addAbs _ | .jmpAbs _ | .jpcAbs _ | .jpzAbs _ | .jpnAbs _ | .phAbs _ | .plAbs _ | .andAbs _ | .xorAbs _ | .clcAbs _ => true
  | .brkImm _ | .ldImm _ | .stImm _ | .addImm _ | .jmpImm _ | .jpcImm _ | .jpzImm _ | .jpnImm _ | .phImm _ | .plImm _ | .andImm _ | .xorImm _ | .clcImm _ => true
  | .brkImp _ | .ldImp _ | .stImp _ | .addImp _ | .jmpImp _ | .jpcImp _ | .jpzImp _ | .jpnImp _ | .phImp _ | .plImp _ | .andImp _ | .xorImp _ | .clcImp _ => true

/-- The operand an instruction of a mode takes (R79, R82). -/
def Operand.fits (m : Mode) (o : Operand) : Bool :=
  match m, o with
  | .absolute, .address _ => true
  | .immediate, .value _ => true
  | .implied, .nothing => true
  | _, _ => false

/-- An assembly line is well formed when its instruction is and its operand is the one its mode takes. -/
def Asm.wf (l : Asm) : Bool := l.instr.wf && Operand.fits l.instr.mode l.operand

end Sys2Proof
end

