-- ==== Sys2Proof/Decode.lean ====
section
/-! DEFINITION. The decoder and the encoder (30_encoding.md). The decoder reads one raw byte and the constant Instruction
Table (R70); it is total on all 256 bytes (R70, R78). Around it stand the assembler of rule R82 and its inverse on
sequences of bytes. -/

namespace Sys2Proof

/-! ## Field extraction (R70, R71) -/

/-- `op = c[3:0]` (R70). -/
def opField (c : Byte) : BitVec 4 := c.extractLsb' 0 4

/-- `reg = c[5:4]` (R70). -/
def regField (c : Byte) : BitVec 2 := c.extractLsb' 4 2

/-- `mode = c[7:6]` (R70). -/
def modeField (c : Byte) : BitVec 2 := c.extractLsb' 6 2

/-- `encode(op, mode, reg) = (mode << 6) | (reg << 4) | op` (R71). -/
def combinedByte (op : BitVec 4) (mode reg : BitVec 2) : Byte :=
  (mode.setWidth 8 <<< 6) ||| (reg.setWidth 8 <<< 4) ||| op.setWidth 8

/-- Opcode numbers (R72). -/
def opBits : Op → BitVec 4
  | .brk => 0x0
  | .ld => 0x1
  | .st => 0x2
  | .add => 0x3
  | .jmp => 0x4
  | .jpc => 0x5
  | .jpz => 0x6
  | .jpn => 0x7
  | .ph => 0x8
  | .pl => 0x9
  | .and => 0xA
  | .xor => 0xB
  | .clc => 0xC

/-- The mnemonic of an opcode number (R72); 0xD, 0xE and 0xF are unassigned. -/
def opOfBits (n : BitVec 4) : Option Op :=
  match n.toNat with
  | 0 => some .brk
  | 1 => some .ld
  | 2 => some .st
  | 3 => some .add
  | 4 => some .jmp
  | 5 => some .jpc
  | 6 => some .jpz
  | 7 => some .jpn
  | 8 => some .ph
  | 9 => some .pl
  | 10 => some .and
  | 11 => some .xor
  | 12 => some .clc
  | _ => none

/-- Mode numbers (R73). -/
def modeBits : Mode → BitVec 2
  | .absolute => 0
  | .immediate => 1
  | .implied => 2

/-- The mode of a mode number (R73); 3 is unassigned. -/
def modeOfBits (n : BitVec 2) : Option Mode :=
  match n.toNat with
  | 0 => some .absolute
  | 1 => some .immediate
  | 2 => some .implied
  | _ => none

/-- Register numbers (R74). -/
def regBits : Reg → BitVec 2
  | .r0 => 0
  | .r1 => 1
  | .r2 => 2

/-- The register of a register number (R74); 3 is unassigned (R11). -/
def regOfBits (n : BitVec 2) : Option Reg :=
  match n.toNat with
  | 0 => some .r0
  | 1 => some .r1
  | 2 => some .r2
  | _ => none

/-- The fields of a combined byte, where all three name something (R70, R77). -/
def fieldsOf (c : Byte) : Option (Op × Mode × Reg) :=
  match opOfBits (opField c), modeOfBits (modeField c), regOfBits (regField c) with
  | some op, some m, some r => some (op, m, r)
  | _, _, _ => none

/-! ## The Instruction Table (R75 to R77) -/

/-- The ranges R76 and R77 ask of a byte's three fields. -/
def fieldsInRange (c : Byte) : Bool :=
  opField c ≤ 0xC && regField c ≤ 2 && modeField c ≤ 2

/-- The default `ITAB` (R76): the identity on legal encodings, 0x00 elsewhere. -/
def itabDefault (b : Byte) : Byte := if fieldsInRange b then b else 0x00

/-- Well-formedness of a table, for every raw byte (R77). -/
def tableWf (itab : Byte → Byte) : Bool :=
  (List.range 256).all fun n => fieldsInRange (itab (BitVec.ofNat 8 n))

/-! ## Decoding and encoding one instruction byte -/

/-- The constructor for a mnemonic, a mode and a register (R84). -/
def Instr.ofFields (op : Op) (m : Mode) (r : Reg) : Instr :=
  match op, m with
  | .brk, .absolute => .brkAbs r
  | .ld, .absolute => .ldAbs r
  | .st, .absolute => .stAbs r
  | .add, .absolute => .addAbs r
  | .jmp, .absolute => .jmpAbs r
  | .jpc, .absolute => .jpcAbs r
  | .jpz, .absolute => .jpzAbs r
  | .jpn, .absolute => .jpnAbs r
  | .ph, .absolute => .phAbs r
  | .pl, .absolute => .plAbs r
  | .and, .absolute => .andAbs r
  | .xor, .absolute => .xorAbs r
  | .clc, .absolute => .clcAbs r
  | .brk, .immediate => .brkImm r
  | .ld, .immediate => .ldImm r
  | .st, .immediate => .stImm r
  | .add, .immediate => .addImm r
  | .jmp, .immediate => .jmpImm r
  | .jpc, .immediate => .jpcImm r
  | .jpz, .immediate => .jpzImm r
  | .jpn, .immediate => .jpnImm r
  | .ph, .immediate => .phImm r
  | .pl, .immediate => .plImm r
  | .and, .immediate => .andImm r
  | .xor, .immediate => .xorImm r
  | .clc, .immediate => .clcImm r
  | .brk, .implied => .brkImp r
  | .ld, .implied => .ldImp r
  | .st, .implied => .stImp r
  | .add, .implied => .addImp r
  | .jmp, .implied => .jmpImp r
  | .jpc, .implied => .jpcImp r
  | .jpz, .implied => .jpzImp r
  | .jpn, .implied => .jpnImp r
  | .ph, .implied => .phImp r
  | .pl, .implied => .plImp r
  | .and, .implied => .andImp r
  | .xor, .implied => .xorImp r
  | .clc, .implied => .clcImp r

/-- The mnemonic an instruction executes: ILLEGAL executes as BRK (R78). -/
def Instr.op : Instr → Op
  | .brkAbs _ | .brkImm _ | .brkImp _ | .illegal _ => .brk
  | .ldAbs _ | .ldImm _ | .ldImp _ => .ld
  | .stAbs _ | .stImm _ | .stImp _ => .st
  | .addAbs _ | .addImm _ | .addImp _ => .add
  | .jmpAbs _ | .jmpImm _ | .jmpImp _ => .jmp
  | .jpcAbs _ | .jpcImm _ | .jpcImp _ => .jpc
  | .jpzAbs _ | .jpzImm _ | .jpzImp _ => .jpz
  | .jpnAbs _ | .jpnImm _ | .jpnImp _ => .jpn
  | .phAbs _ | .phImm _ | .phImp _ => .ph
  | .plAbs _ | .plImm _ | .plImp _ => .pl
  | .andAbs _ | .andImm _ | .andImp _ => .and
  | .xorAbs _ | .xorImm _ | .xorImp _ => .xor
  | .clcAbs _ | .clcImm _ | .clcImp _ => .clc

/-- The register field an instruction carries; ILLEGAL executes with R0 (R78). -/
def Instr.reg : Instr → Reg
  | .brkAbs r | .ldAbs r | .stAbs r | .addAbs r | .jmpAbs r | .jpcAbs r | .jpzAbs r | .jpnAbs r | .phAbs r | .plAbs r | .andAbs r | .xorAbs r | .clcAbs r => r
  | .brkImm r | .ldImm r | .stImm r | .addImm r | .jmpImm r | .jpcImm r | .jpzImm r | .jpnImm r | .phImm r | .plImm r | .andImm r | .xorImm r | .clcImm r => r
  | .brkImp r | .ldImp r | .stImp r | .addImp r | .jmpImp r | .jpcImp r | .jpzImp r | .jpnImp r | .phImp r | .plImp r | .andImp r | .xorImp r | .clcImp r => r
  | .illegal _ => .r0

/-- The decoder (R70): the raw byte through the table, then the fields; a byte with no populated entry is ILLEGAL, which
executes as the all-zero entry it reads (R75, R78). -/
def decode (b : Byte) : Instr :=
  if fieldsInRange b then
    match fieldsOf (itabDefault b) with
    | some (op, m, r) => Instr.ofFields op m r
    | none => .illegal b
  else .illegal b

/-- The raw byte of an instruction at the default table (R71, R76). -/
def encode (i : Instr) : Byte :=
  match i with
  | .illegal raw => raw
  | i => combinedByte (opBits i.op) (modeBits i.mode) (regBits i.reg)

/-! ## Assembly lines (R79, R80, R82) -/

/-- How many operand bytes a mode consumes (R73, R79). -/
def operandBytes : Mode → Nat
  | .absolute => 2
  | .immediate => 1
  | .implied => 0

/-- Why a sequence of bytes is no assembly line; no raw byte is rejected (R78). -/
inductive DecodeError where
  /-- The sequence ends before the instruction does (R79). Raised by `disassemble` alone; safe: memory never ends. -/
  | truncated
  deriving DecidableEq, Repr

/-- The operand bytes, low byte first (R44, R79). -/
def encodeOperand : Operand → List Byte
  | .address a => [a.extractLsb' 0 8, a.extractLsb' 8 8]
  | .value v => [v]
  | .nothing => []

/-- The bytes of an assembly line in memory order (R79, R82). -/
def assemble (l : Asm) : List Byte := encode l.instr :: encodeOperand l.operand

/-- The operand of a mode at the head of a sequence of bytes, and the rest (R79, R80). -/
def decodeOperand (m : Mode) (bs : List Byte) : Except DecodeError (Operand × List Byte) :=
  match m, bs with
  | .absolute, lo :: hi :: rest => .ok (.address (hi ++ lo), rest)
  | .absolute, _ => .error .truncated
  | .immediate, v :: rest => .ok (.value v, rest)
  | .immediate, _ => .error .truncated
  | .implied, rest => .ok (.nothing, rest)

/-- The assembly line at the head of a sequence of bytes, and the rest (R70, R79). -/
def disassemble (bs : List Byte) : Except DecodeError (Asm × List Byte) :=
  match bs with
  | [] => .error .truncated
  | b :: rest =>
    match decodeOperand (decode b).mode rest with
    | .ok (o, rest') => .ok (⟨decode b, o⟩, rest')
    | .error e => .error e

/-! ## Words of the opcode table -/

/-- The bytes of the longest instruction (R79) whose bits below `nbits` are those of `w` and 0 above, first byte lowest. -/
def tableWordBytes (nbits w : Nat) : List Byte :=
  [BitVec.ofNat 8 (w % 2 ^ nbits), BitVec.ofNat 8 (w % 2 ^ nbits / 2 ^ 8), BitVec.ofNat 8 (w % 2 ^ nbits / 2 ^ 16)]

/-- The instruction the decoder reads from a word of spec/opcode_table.json. -/
def decodeTableWord (nbits w : Nat) : Option Instr :=
  match disassemble (tableWordBytes nbits w) with
  | .ok (l, _) => some l.instr
  | .error _ => none

end Sys2Proof
end

