-- ==== Sys2Proof/Machine/State.lean ====
section
/-! DEFINITION. The state of the machine, all that 10_state.md gives it (rule R27 closes the list), its stop reasons, and
the state after Reset. -/

namespace Sys2Proof.Machine

/-- Memory: pairs of address and byte, addresses strictly rising below 65536, no pair holding the byte an unlisted address
reads as (`Memory.wf` in Machine/Ops.lean). All 65536 locations are RAM (R40). -/
abbrev Memory := List Host.Cell

/-- The Change Map: pairs of address and original byte, addresses strictly rising below 65536 (R25). -/
abbrev ChangeMap := List Host.Cell

/-- A machine that has been Reset (R27, R31). -/
structure State where
  /-- R0 (R10). -/
  r0 : Byte
  /-- R1 (R10). -/
  r1 : Byte
  /-- R2 (R10). -/
  r2 : Byte
  /-- The program counter (R12). -/
  pc : Addr
  /-- The status register (R14): C, Z, I, unused, B, unused, V, N from bit 0 up. -/
  sr : Byte
  /-- The stack pointer, an offset in the page 0x0100 to 0x01FF (R23). -/
  sp : Byte
  /-- The 64 KB memory (R40). -/
  mem : Memory
  /-- The highlight counter, operand bytes of the last instruction (R24). -/
  hc : Nat
  /-- The Change Map (R25). -/
  cm : ChangeMap
  deriving DecidableEq, Repr

/-- There is none: no step ends in a fault (R170, R172), so the type of fault reasons has no value. -/
inductive Fault where
  deriving DecidableEq, Repr

/-- Why a request has no meaning. No instruction is refused: with a well-formed table every step completes (R77, R102). -/
inductive Refusal where
  /-- An instruction without a meaning in the model; raised by no arm of `exec`. Safe: nothing can be proved of a run that
  stops. -/
  | notModelled (mnemonic : String)
  /-- An Instruction Table with an entry outside the defined fields (R77), raised by `stepWith` and by construction with
  such a table. Safe. -/
  | illFormedTable
  /-- `run` on a machine that has not been Reset since power-on (R191), raised by `Emulator.run`. Safe. -/
  | neverReset
  deriving DecidableEq, Repr

/-- The machine right after Reset (R31, R190), the first since construction, on the image that lists nothing: every byte
0x00, so the reset vector reads 0x0000. DESIGN CHOICE for the image alone (log 2): `IMAGE` has no default (R4). -/
def State.reset : State where
  r0 := 0x00
  r1 := 0x00
  r2 := 0x00
  pc := 0x0000
  sr := 0x00
  sp := 0xFD
  mem := []
  hc := 0
  cm := []

end Sys2Proof.Machine
end

