-- ==== Sys2Proof/Machine/Flags.lean ====
section
/-! DEFINITION. The flag register: the six flags and their accessors (10_state.md rules R14 to R22), the flag update that
LD, PL, AND and XOR share (R30), and the sum of ADD (43_add.md rule R130). -/

namespace Sys2Proof.Machine

/-- The six flags (R14). -/
inductive Flag where
  | carry | zero | interrupt | brk | overflow | negative
  deriving DecidableEq, Repr

/-- The bit position of a flag (R14). -/
def flagBit : Flag → Nat
  | .carry => 0
  | .zero => 1
  | .interrupt => 2
  | .brk => 4
  | .overflow => 6
  | .negative => 7

/-- The masks (R14). -/
def flagMask : Flag → Byte
  | .carry => 0x01
  | .zero => 0x02
  | .interrupt => 0x04
  | .brk => 0x10
  | .overflow => 0x40
  | .negative => 0x80

/-- *set*: `sr <- sr | m` (R15). -/
def setFlag (f : Flag) (sr : Byte) : Byte := sr ||| flagMask f

/-- *clear*: `sr <- sr & ~m` (R15). -/
def clearFlag (f : Flag) (sr : Byte) : Byte := sr &&& ~~~flagMask f

/-- *query*: `(sr & m) != 0` (R15). -/
def queryFlag (f : Flag) (sr : Byte) : Bool := (sr &&& flagMask f) != 0

/-- `F <- b` (R15). -/
def assignFlag (f : Flag) (b : Bool) (sr : Byte) : Byte := if b then setFlag f sr else clearFlag f sr

/-- `SetNZ(v)` on the status register (R30). -/
def setNZ (n : NegMode) (v : Byte) (sr : Byte) : Byte :=
  let negative := match n with
    | .bit7 => v.getLsbD 7
    | .never => false
  assignFlag .zero (v == 0x00) (assignFlag .negative negative sr)

/-- The 9-bit sum of ADD: memory byte, register, carry in (R130). -/
def addSum (m x : Byte) (carry : Bool) : BitVec 9 :=
  m.setWidth 9 + x.setWidth 9 + (BitVec.ofBool carry).setWidth 9

/-- ADD's flags, from its 9-bit sum: C from bit 8, Z from the low byte, nothing else (R130). -/
def setCZ (sum : BitVec 9) (sr : Byte) : Byte :=
  assignFlag .zero (sum.setWidth 8 == 0x00) (assignFlag .carry (sum.getLsbD 8) sr)

end Sys2Proof.Machine
end

