-- ==== Sys2Proof/Machine/Ops.lean ====
section
/-! DEFINITION. The named operations over memory, registers and the stack, instruction fetch, trap entry and the Reset
command (10_state.md, 20_memory.md, 41_brk.md, 70_reset_and_hazards.md). -/

namespace Sys2Proof.Machine

/-! ## Lists of cells -/

/-- The byte listed at an address. -/
def lookupCell (k : Nat) : List Host.Cell → Option Byte
  | [] => none
  | c :: cs => if c.1 = k then some c.2 else lookupCell k cs

/-- The list with a byte listed at an address, in its place by address. -/
def insertCell (k : Nat) (v : Byte) : List Host.Cell → List Host.Cell
  | [] => [(k, v)]
  | c :: cs =>
    if k < c.1 then (k, v) :: c :: cs
    else if k = c.1 then (k, v) :: cs
    else c :: insertCell k v cs

/-- The list with nothing listed at an address. -/
def eraseCell (k : Nat) (cs : List Host.Cell) : List Host.Cell := cs.filter fun c => c.1 != k

/-- Addresses strictly rising and inside the address space. -/
def cellsRising (cs : List Host.Cell) : Bool :=
  match cs with
  | [] => true
  | [c] => c.1 < Config.memSize
  | c :: d :: rest => c.1 < d.1 && cellsRising (d :: rest)

/-! ## Memory and the Change Map (R40 to R43, R57) -/

/-- What an address that no entry lists reads as. DESIGN CHOICE (log 2): `IMAGE` has no default (R4, R40); the test vectors
of 95_test_vectors.md take 0x00. -/
def Memory.unlisted : Byte := 0x00

/-- The byte at an address. -/
def Memory.read (m : Memory) (a : Nat) : Byte := (lookupCell a m).getD Memory.unlisted

/-- Memory with a byte replaced, in canonical form again. -/
def Memory.write (m : Memory) (a : Nat) (v : Byte) : Memory :=
  if v = Memory.unlisted then eraseCell a m else insertCell a v m

/-- The canonical form: equal memories are equal lists. -/
def Memory.wf (m : Memory) : Bool := cellsRising m && m.all fun c => c.2 != Memory.unlisted

/-- Bytes stored from an address upward, addresses modulo 65536, without change tracking: a bulk load's kind of write
(R57), no instruction's. -/
def Memory.place (m : Memory) (a : Addr) : List Byte → Memory
  | [] => m
  | b :: bs => (Memory.write m a.toNat b).place (a + 1) bs

/-- The Change Map's insertion: the first write to an address records the byte before it, a later one changes nothing
(R42, R43). -/
def ChangeMap.record (cm : ChangeMap) (a : Nat) (old : Byte) : ChangeMap :=
  match lookupCell a cm with
  | some _ => cm
  | none => insertCell a old cm

/-- The Change Map's canonical form. -/
def ChangeMap.wf (cm : ChangeMap) : Bool := cellsRising cm

/-! ## Register access -/

/-- `pc <- v` (R12). -/
def State.setPc (s : State) (v : Addr) : State := { s with pc := v }

/-- `sp <- v` (R23). -/
def State.setSp (s : State) (v : Byte) : State := { s with sp := v }

/-- `sr <- v` (R14). -/
def State.setSr (s : State) (v : Byte) : State := { s with sr := v }

/-- `hc <- v` (R24). -/
def State.setHc (s : State) (v : Nat) : State := { s with hc := v }

/-- `x[r]` (R10). -/
def State.reg (s : State) : Reg → Byte
  | .r0 => s.r0
  | .r1 => s.r1
  | .r2 => s.r2

/-- `x[r] <- v` (R10). -/
def State.setReg (s : State) (r : Reg) (v : Byte) : State :=
  match r with
  | .r0 => { s with r0 := v }
  | .r1 => { s with r1 := v }
  | .r2 => { s with r2 := v }

/-! ## Memory access -/

/-- `MemRead(a, 1)` (R41). -/
def State.memRead (s : State) (a : Addr) : Byte := s.mem.read a.toNat

/-- `MemWrite(a, 1, v)` (R42): first the Change Map, from the byte before the write; then the byte. -/
def State.memWrite (s : State) (a : Addr) (v : Byte) : State :=
  { s with cm := ChangeMap.record s.cm a.toNat (s.memRead a), mem := s.mem.write a.toNat v }

/-- The little-endian 16-bit quantity whose bytes are at two given addresses (R44). -/
def State.readWord (s : State) (low high : Addr) : Addr := s.memRead high ++ s.memRead low

/-! ## The stack (R59, R60) -/

/-- `0x0100 + zext_16(sp)` (R23). -/
def stackAddr (sp : Byte) : Addr := Config.stackBase + sp.setWidth 16

/-- `Push(v)` (R59). -/
def State.push (s : State) (v : Byte) : State := (s.memWrite (stackAddr s.sp) v).setSp (s.sp - 1)

/-- `Pop()` (R60): the byte, and the state after. -/
def State.pop (s : State) : Byte × State :=
  let s' := s.setSp (s.sp + 1)
  (s'.memRead (stackAddr s'.sp), s')

/-! ## Instruction fetch, trap entry, Reset -/

/-- Phase 1 of a step (R101): the raw byte, and the state with the PC past it. -/
def State.fetch (s : State) : Byte × State := (s.memRead s.pc, s.setPc (s.pc + 1))

/-- Trap entry, the BRK sequence (R110, R175): increment the PC, push it high byte first, push SR as it stands, set I,
load the PC from the interrupt vector. The hardware has no return from a trap (R176), so no operation stands beside it. -/
def State.takeTrap (s : State) : State :=
  let s1 := s.setPc (s.pc + 1)
  let s2 := s1.push (s1.pc.extractLsb' 8 8)
  let s3 := s2.push (s2.pc.extractLsb' 0 8)
  let s4 := s3.push s3.sr
  let s5 := s4.setSr (setFlag .interrupt s4.sr)
  s5.setPc (s5.readWord Config.irqVecLow Config.irqVecHigh)

/-- The host's Reset command (R190); memory, the Change Map and the highlight counter stay (R195). -/
def State.hostReset (s : State) : State :=
  let s1 := ((s.setReg .r0 0x00).setReg .r1 0x00).setReg .r2 0x00
  let s2 := (s1.setSr 0x00).setSp Config.spReset
  s2.setPc (s2.readWord Config.resetVecLow Config.resetVecHigh)

end Sys2Proof.Machine
end

