-- ==== Sys2Proof/Machine/Operands.lean ====
section
/-! DEFINITION. The addressing-mode resolver (40_fetch_decode_execute.md rules R103 to R105), the displacement of the
conditional jumps (44_jumps.md rule R144), and phases 3 to 5 of a step (R101). -/

namespace Sys2Proof.Machine

/-- The parameter values the core runs at: the spec's defaults (R4, R76; log 1). -/
def params : Params where
  itab := itabDefault
  negMode := .bit7
  absWidth := .full
  jrel := .zextByte

/-- `Resolve(mode)` (R103, R104, R105): the operand address, and the state with the PC past the operand bytes. -/
def resolve (p : Params) (m : Mode) (s : State) : Addr × State :=
  match m with
  | .absolute =>
    let lo := s.memRead s.pc
    let hi := s.memRead (s.pc + 1)
    let ea : Addr := match p.absWidth with
      | .full => (hi.setWidth 16 <<< 8) + lo.setWidth 16
      | .low => lo.setWidth 16
    (ea, (s.setPc (s.pc + 2)).setHc 2)
  | .immediate => (s.pc, (s.setPc (s.pc + 1)).setHc (s.hc + 1))
  | .implied => (0x0000, s)

/-- The operand address an instruction's handler receives, `s` being the state the fetch left (R101, phases 3 and 4). -/
def operandAddress (p : Params) (m : Mode) (s : State) : Addr := (resolve p m (s.setHc 0)).1

/-- The state an instruction's handler starts from, `s` being the state the fetch left (R101, phases 3 and 4). -/
def afterResolve (p : Params) (m : Mode) (s : State) : State := (resolve p m (s.setHc 0)).2

/-- Phases 3 to 5 of a step (R101): reset the highlight counter, resolve the operand, run the handler on its address. -/
def runForm (p : Params) (m : Mode) (handler : Addr → State → State) (s : State) : State :=
  handler (operandAddress p m s) (afterResolve p m s)

/-- The displacement a taken conditional jump adds to the PC (R144). -/
def displacement (p : Params) (ea : Addr) (s : State) : Addr :=
  match p.jrel with
  | .zextByte => (s.memRead ea).setWidth 16
  | .sextByte => (s.memRead ea).signExtend 16
  | .address => ea

end Sys2Proof.Machine
end

