-- ==== Sys2Proof/Machine/Arithmetic.lean ====
section
/-! DEFINITION. ADD (43_add.md). -/

namespace Sys2Proof.Machine

/-- ADD's handler (R130). -/
def addHandler (_p : Params) (r : Reg) (ea : Addr) (s : State) : State :=
  let sum := addSum (s.memRead ea) (s.reg r) (queryFlag .carry s.sr)
  (s.setSr (setCZ sum s.sr)).setReg r (sum.setWidth 8)

/-- `ADD.abs` (R130). -/
def execAddAbs (r : Reg) (s : State) : Host.Outcome State Fault Refusal :=
  .next (runForm params .absolute (addHandler params r) s)

/-- `ADD.imm` (R130). -/
def execAddImm (r : Reg) (s : State) : Host.Outcome State Fault Refusal :=
  .next (runForm params .immediate (addHandler params r) s)

/-- `ADD.imp` (R130). -/
def execAddImp (r : Reg) (s : State) : Host.Outcome State Fault Refusal :=
  .next (runForm params .implied (addHandler params r) s)

end Sys2Proof.Machine
end

