-- ==== Sys2Proof/Machine/Jumps.lean ====
section
/-! DEFINITION. JMP, JPC, JPZ and JPN (44_jumps.md). -/

namespace Sys2Proof.Machine

/-- JMP's handler (R140). -/
def jumpHandler (_p : Params) (ea : Addr) (s : State) : State := s.setPc ea

/-- The handler JPC, JPZ and JPN share, on the flag each tests (R141 to R144). -/
def jumpIfHandler (f : Flag) (p : Params) (ea : Addr) (s : State) : State :=
  if queryFlag f s.sr then s.setPc (s.pc + displacement p ea s) else s

/-- `JMP.abs` (R140). -/
def execJmpAbs (_r : Reg) (s : State) : Host.Outcome State Fault Refusal :=
  .next (runForm params .absolute (jumpHandler params) s)

/-- `JMP.imm` (R140). -/
def execJmpImm (_r : Reg) (s : State) : Host.Outcome State Fault Refusal :=
  .next (runForm params .immediate (jumpHandler params) s)

/-- `JMP.imp` (R140). -/
def execJmpImp (_r : Reg) (s : State) : Host.Outcome State Fault Refusal :=
  .next (runForm params .implied (jumpHandler params) s)

/-- `JPC.abs` (R141). -/
def execJpcAbs (_r : Reg) (s : State) : Host.Outcome State Fault Refusal :=
  .next (runForm params .absolute (jumpIfHandler .carry params) s)

/-- `JPC.imm` (R141). -/
def execJpcImm (_r : Reg) (s : State) : Host.Outcome State Fault Refusal :=
  .next (runForm params .immediate (jumpIfHandler .carry params) s)

/-- `JPC.imp` (R141). -/
def execJpcImp (_r : Reg) (s : State) : Host.Outcome State Fault Refusal :=
  .next (runForm params .implied (jumpIfHandler .carry params) s)

/-- `JPZ.abs` (R142). -/
def execJpzAbs (_r : Reg) (s : State) : Host.Outcome State Fault Refusal :=
  .next (runForm params .absolute (jumpIfHandler .zero params) s)

/-- `JPZ.imm` (R142). -/
def execJpzImm (_r : Reg) (s : State) : Host.Outcome State Fault Refusal :=
  .next (runForm params .immediate (jumpIfHandler .zero params) s)

/-- `JPZ.imp` (R142). -/
def execJpzImp (_r : Reg) (s : State) : Host.Outcome State Fault Refusal :=
  .next (runForm params .implied (jumpIfHandler .zero params) s)

/-- `JPN.abs` (R143). -/
def execJpnAbs (_r : Reg) (s : State) : Host.Outcome State Fault Refusal :=
  .next (runForm params .absolute (jumpIfHandler .negative params) s)

/-- `JPN.imm` (R143). -/
def execJpnImm (_r : Reg) (s : State) : Host.Outcome State Fault Refusal :=
  .next (runForm params .immediate (jumpIfHandler .negative params) s)

/-- `JPN.imp` (R143). -/
def execJpnImp (_r : Reg) (s : State) : Host.Outcome State Fault Refusal :=
  .next (runForm params .implied (jumpIfHandler .negative params) s)

end Sys2Proof.Machine
end

