-- ==== Sys2Proof/Machine/LoadStore.lean ====
section
/-! DEFINITION. LD and ST (42_load_store.md). -/

namespace Sys2Proof.Machine

/-- LD's handler (R120). -/
def loadHandler (p : Params) (r : Reg) (ea : Addr) (s : State) : State :=
  let v := s.memRead ea
  (s.setSr (setNZ p.negMode v s.sr)).setReg r v

/-- ST's handler (R121). -/
def storeHandler (_p : Params) (r : Reg) (ea : Addr) (s : State) : State := s.memWrite ea (s.reg r)

/-- `LD.abs` (R120). -/
def execLdAbs (r : Reg) (s : State) : Host.Outcome State Fault Refusal :=
  .next (runForm params .absolute (loadHandler params r) s)

/-- `LD.imm` (R120). -/
def execLdImm (r : Reg) (s : State) : Host.Outcome State Fault Refusal :=
  .next (runForm params .immediate (loadHandler params r) s)

/-- `LD.imp` (R120). -/
def execLdImp (r : Reg) (s : State) : Host.Outcome State Fault Refusal :=
  .next (runForm params .implied (loadHandler params r) s)

/-- `ST.abs` (R121). -/
def execStAbs (r : Reg) (s : State) : Host.Outcome State Fault Refusal :=
  .next (runForm params .absolute (storeHandler params r) s)

/-- `ST.imm` (R121). -/
def execStImm (r : Reg) (s : State) : Host.Outcome State Fault Refusal :=
  .next (runForm params .immediate (storeHandler params r) s)

/-- `ST.imp` (R121). -/
def execStImp (r : Reg) (s : State) : Host.Outcome State Fault Refusal :=
  .next (runForm params .implied (storeHandler params r) s)

end Sys2Proof.Machine
end

