-- ==== Sys2Proof/Machine/Logic.lean ====
section
/-! DEFINITION. AND, XOR and CLC (46_logic_flags.md). -/

namespace Sys2Proof.Machine

/-- AND's handler (R160). -/
def andHandler (p : Params) (r : Reg) (ea : Addr) (s : State) : State :=
  let v := s.reg r &&& s.memRead ea
  (s.setSr (setNZ p.negMode v s.sr)).setReg r v

/-- XOR's handler (R161). -/
def xorHandler (p : Params) (r : Reg) (ea : Addr) (s : State) : State :=
  let v := s.reg r ^^^ s.memRead ea
  (s.setSr (setNZ p.negMode v s.sr)).setReg r v

/-- CLC's handler (R162). -/
def clearCarryHandler (_p : Params) (_ea : Addr) (s : State) : State := s.setSr (clearFlag .carry s.sr)

/-- `AND.abs` (R160). -/
def execAndAbs (r : Reg) (s : State) : Host.Outcome State Fault Refusal :=
  .next (runForm params .absolute (andHandler params r) s)

/-- `AND.imm` (R160). -/
def execAndImm (r : Reg) (s : State) : Host.Outcome State Fault Refusal :=
  .next (runForm params .immediate (andHandler params r) s)

/-- `AND.imp` (R160). -/
def execAndImp (r : Reg) (s : State) : Host.Outcome State Fault Refusal :=
  .next (runForm params .implied (andHandler params r) s)

/-- `XOR.abs` (R161). -/
def execXorAbs (r : Reg) (s : State) : Host.Outcome State Fault Refusal :=
  .next (runForm params .absolute (xorHandler params r) s)

/-- `XOR.imm` (R161). -/
def execXorImm (r : Reg) (s : State) : Host.Outcome State Fault Refusal :=
  .next (runForm params .immediate (xorHandler params r) s)

/-- `XOR.imp` (R161). -/
def execXorImp (r : Reg) (s : State) : Host.Outcome State Fault Refusal :=
  .next (runForm params .implied (xorHandler params r) s)

/-- `CLC.abs` (R162). -/
def execClcAbs (_r : Reg) (s : State) : Host.Outcome State Fault Refusal :=
  .next (runForm params .absolute (clearCarryHandler params) s)

/-- `CLC.imm` (R162). -/
def execClcImm (_r : Reg) (s : State) : Host.Outcome State Fault Refusal :=
  .next (runForm params .immediate (clearCarryHandler params) s)

/-- `CLC.imp` (R162). -/
def execClcImp (_r : Reg) (s : State) : Host.Outcome State Fault Refusal :=
  .next (runForm params .implied (clearCarryHandler params) s)

end Sys2Proof.Machine
end

