-- ==== Sys2Proof/Machine/Stack.lean ====
section
/-! DEFINITION. PH and PL (45_stack.md). -/

namespace Sys2Proof.Machine

/-- PH's handler (R150). -/
def pushHandler (_p : Params) (r : Reg) (_ea : Addr) (s : State) : State := s.push (s.reg r)

/-- PL's handler (R151). -/
def pullHandler (p : Params) (r : Reg) (_ea : Addr) (s : State) : State :=
  let popped := s.pop
  let s' := popped.2.setReg r popped.1
  s'.setSr (setNZ p.negMode popped.1 s'.sr)

/-- `PH.abs` (R150). -/
def execPhAbs (r : Reg) (s : State) : Host.Outcome State Fault Refusal :=
  .next (runForm params .absolute (pushHandler params r) s)

/-- `PH.imm` (R150). -/
def execPhImm (r : Reg) (s : State) : Host.Outcome State Fault Refusal :=
  .next (runForm params .immediate (pushHandler params r) s)

/-- `PH.imp` (R150). -/
def execPhImp (r : Reg) (s : State) : Host.Outcome State Fault Refusal :=
  .next (runForm params .implied (pushHandler params r) s)

/-- `PL.abs` (R151). -/
def execPlAbs (r : Reg) (s : State) : Host.Outcome State Fault Refusal :=
  .next (runForm params .absolute (pullHandler params r) s)

/-- `PL.imm` (R151). -/
def execPlImm (r : Reg) (s : State) : Host.Outcome State Fault Refusal :=
  .next (runForm params .immediate (pullHandler params r) s)

/-- `PL.imp` (R151). -/
def execPlImp (r : Reg) (s : State) : Host.Outcome State Fault Refusal :=
  .next (runForm params .implied (pullHandler params r) s)

end Sys2Proof.Machine
end

