-- ==== Sys2Proof/Machine/Trap.lean ====
section
/-! DEFINITION. BRK and the illegal bytes (41_brk.md; 30_encoding.md rule R78). -/

namespace Sys2Proof.Machine

/-- BRK's handler (R110). -/
def breakHandler (_p : Params) (_ea : Addr) (s : State) : State := s.takeTrap

/-- An illegal byte executes exactly as `BRK.abs R0`; nothing records which byte it was (R78, R111). -/
def execIllegal (_raw : Byte) (s : State) : Host.Outcome State Fault Refusal :=
  .next (runForm params .absolute (breakHandler params) s)

/-- `BRK.abs` (R110, R111). -/
def execBrkAbs (_r : Reg) (s : State) : Host.Outcome State Fault Refusal :=
  .next (runForm params .absolute (breakHandler params) s)

/-- `BRK.imm` (R110, R111). -/
def execBrkImm (_r : Reg) (s : State) : Host.Outcome State Fault Refusal :=
  .next (runForm params .immediate (breakHandler params) s)

/-- `BRK.imp` (R110, R111). -/
def execBrkImp (_r : Reg) (s : State) : Host.Outcome State Fault Refusal :=
  .next (runForm params .implied (breakHandler params) s)

end Sys2Proof.Machine
end

