-- ==== Sys2Proof/Machine/Dispatch.lean ====
section
/-! DEFINITION. The dispatch: one arm per constructor, one direct call per arm (40_fetch_decode_execute.md rule R106). The
state `exec` starts from is the one the fetch left: its PC is the address of the raw byte plus 1. -/

namespace Sys2Proof.Machine

def exec (i : Instr) (s : State) : Host.Outcome State Fault Refusal :=
  match i with
  | .brkAbs r => Sys2Proof.Machine.execBrkAbs r s
  | .ldAbs r => Sys2Proof.Machine.execLdAbs r s
  | .stAbs r => Sys2Proof.Machine.execStAbs r s
  | .addAbs r => Sys2Proof.Machine.execAddAbs r s
  | .jmpAbs r => Sys2Proof.Machine.execJmpAbs r s
  | .jpcAbs r => Sys2Proof.Machine.execJpcAbs r s
  | .jpzAbs r => Sys2Proof.Machine.execJpzAbs r s
  | .jpnAbs r => Sys2Proof.Machine.execJpnAbs r s
  | .phAbs r => Sys2Proof.Machine.execPhAbs r s
  | .plAbs r => Sys2Proof.Machine.execPlAbs r s
  | .andAbs r => Sys2Proof.Machine.execAndAbs r s
  | .xorAbs r => Sys2Proof.Machine.execXorAbs r s
  | .clcAbs r => Sys2Proof.Machine.execClcAbs r s
  | .illegal raw => Sys2Proof.Machine.execIllegal raw s
  | .brkImm r => Sys2Proof.Machine.execBrkImm r s
  | .ldImm r => Sys2Proof.Machine.execLdImm r s
  | .stImm r => Sys2Proof.Machine.execStImm r s
  | .addImm r => Sys2Proof.Machine.execAddImm r s
  | .jmpImm r => Sys2Proof.Machine.execJmpImm r s
  | .jpcImm r => Sys2Proof.Machine.execJpcImm r s
  | .jpzImm r => Sys2Proof.Machine.execJpzImm r s
  | .jpnImm r => Sys2Proof.Machine.execJpnImm r s
  | .phImm r => Sys2Proof.Machine.execPhImm r s
  | .plImm r => Sys2Proof.Machine.execPlImm r s
  | .andImm r => Sys2Proof.Machine.execAndImm r s
  | .xorImm r => Sys2Proof.Machine.execXorImm r s
  | .clcImm r => Sys2Proof.Machine.execClcImm r s
  | .brkImp r => Sys2Proof.Machine.execBrkImp r s
  | .ldImp r => Sys2Proof.Machine.execLdImp r s
  | .stImp r => Sys2Proof.Machine.execStImp r s
  | .addImp r => Sys2Proof.Machine.execAddImp r s
  | .jmpImp r => Sys2Proof.Machine.execJmpImp r s
  | .jpcImp r => Sys2Proof.Machine.execJpcImp r s
  | .jpzImp r => Sys2Proof.Machine.execJpzImp r s
  | .jpnImp r => Sys2Proof.Machine.execJpnImp r s
  | .phImp r => Sys2Proof.Machine.execPhImp r s
  | .plImp r => Sys2Proof.Machine.execPlImp r s
  | .andImp r => Sys2Proof.Machine.execAndImp r s
  | .xorImp r => Sys2Proof.Machine.execXorImp r s
  | .clcImp r => Sys2Proof.Machine.execClcImp r s

end Sys2Proof.Machine
end

