-- ==== Sys2Proof/Machine/Step.lean ====
section
/-! DEFINITION. One step, one whole instruction (40_fetch_decode_execute.md rule R101). -/

namespace Sys2Proof.Machine

/-- Fetch, decode at the default table, execute (R101). -/
def step (s : State) : Host.Outcome State Fault Refusal :=
  let fetched := s.fetch
  exec (decode fetched.1) fetched.2

/-- The state with an opcode-table word stored at the PC, as a bulk load stores it: no entry of the Change Map is made
(R57; log 3). -/
def State.withFetchWord (s : State) (nbits w : Nat) : State :=
  { s with mem := s.mem.place s.pc (tableWordBytes nbits w) }

end Sys2Proof.Machine
end

