-- ==== Sys2Proof/Machine/Parametric.lean ====
section
/-! DEFINITION. The machine at any value of its parameters (00_scope.md rule R4), as R101 and R106 write it: the combined
byte's three fields select a resolver and a handler. The core is this machine at `params`. -/

namespace Sys2Proof.Machine

/-- R77: every entry of the table is inside the defined fields. -/
def paramsWf (p : Params) : Bool := tableWf p.itab

/-- `Exec(op, reg, ea)` (R106). -/
def handlerOf (p : Params) (op : Op) (r : Reg) : Addr → State → State :=
  match op with
  | .brk => breakHandler p
  | .ld => loadHandler p r
  | .st => storeHandler p r
  | .add => addHandler p r
  | .jmp => jumpHandler p
  | .jpc => jumpIfHandler .carry p
  | .jpz => jumpIfHandler .zero p
  | .jpn => jumpIfHandler .negative p
  | .ph => pushHandler p r
  | .pl => pullHandler p r
  | .and => andHandler p r
  | .xor => xorHandler p r
  | .clc => clearCarryHandler p

/-- One step at given parameters (R101); an ill-formed table is refused (R77). -/
def stepWith (p : Params) (s : State) : Host.Outcome State Fault Refusal :=
  if paramsWf p then
    let fetched := s.fetch
    match fieldsOf (p.itab fetched.1) with
    | some (op, m, r) => .next (runForm p m (handlerOf p op r) fetched.2)
    | none => .refused .illFormedTable
  else .refused .illFormedTable

/-- `n` steps at given parameters (R100), stopping where a step is refused. -/
def runWith (p : Params) (n : Nat) (s : State) : Host.Outcome State Fault Refusal :=
  match n with
  | 0 => .next s
  | k + 1 =>
    match stepWith p s with
    | .next t => runWith p k t
    | .fault f => .fault f
    | .refused r => .refused r

end Sys2Proof.Machine
end

