-- ==== Sys2Proof/Machine/HostInterface.lean ====
section
/-! DEFINITION. The host's side of the machine (00_scope.md rules R5, R6; 20_memory.md rules R56, R57;
70_reset_and_hazards.md rules R190, R191, R195): construction, bulk load, Reset, run, observation, saving. Every one of
them acts between instructions; there is no other host action (R194). -/

namespace Sys2Proof.Machine

/-- A memory image: 65536 bytes, byte `k` for address `k` (R57). -/
abbrev Image := Vector Byte Config.memSize

/-- The byte of an image for an address (R57). -/
def Image.byte (img : Image) (a : Addr) : Byte := img[a.toNat]'(a.isLt)

/-- Memory holding the bytes of a list from an address upward, in canonical form. -/
def Memory.ofBytes (a : Nat) : List Byte → Memory
  | [] => []
  | b :: bs => if b = Memory.unlisted then Memory.ofBytes (a + 1) bs else (a, b) :: Memory.ofBytes (a + 1) bs

/-- All of memory from an image (R57). -/
def Memory.ofImage (img : Image) : Memory := Memory.ofBytes 0 img.toList

/-- All of memory as an image (R57). -/
def Memory.toImage (m : Memory) : Image := Vector.ofFn fun k : Fin Config.memSize => m.read k.val

/-- The machine in the host's hands. Between construction and the first Reset its registers, SR, SP and PC are unspecified
(R31, R191): it holds none, so that nothing can rest on a value of theirs. -/
inductive Emulator where
  /-- Constructed and never Reset. -/
  | constructed (mem : Memory) (hc : Nat) (cm : ChangeMap)
  /-- Reset at least once. -/
  | ready (s : State)
  deriving DecidableEq, Repr

/-- Construction (power-on): memory is the image, the Change Map is empty, `hc` is 0 (R31, R191); an ill-formed table is
refused (R77). -/
def Emulator.construct (p : Params) (img : Image) : Host.Outcome Emulator Fault Refusal :=
  if paramsWf p then .next (.constructed (Memory.ofImage img) 0 []) else .refused .illFormedTable

/-- Bulk load: memory is replaced and nothing else changes (R57). -/
def Emulator.bulkLoad (img : Image) : Emulator → Emulator
  | .constructed _ hc cm => .constructed (Memory.ofImage img) hc cm
  | .ready s => .ready { s with mem := Memory.ofImage img }

/-- Reset (R190, R195); the first one gives the registers their values. -/
def Emulator.reset : Emulator → Emulator
  | .constructed mem hc cm => -- Reset overwrites every value written here as 0
    .ready (State.hostReset { r0 := 0, r1 := 0, r2 := 0, pc := 0, sr := 0, sp := 0, mem := mem, hc := hc, cm := cm })
  | .ready s => .ready s.hostReset

/-- `run(n)` (R100); refused on a machine never Reset (R191). -/
def Emulator.run (p : Params) (n : Nat) : Emulator → Host.Outcome Emulator Fault Refusal
  | .constructed _ _ _ => .refused .neverReset
  | .ready s =>
    match runWith p n s with
    | .next t => .next (.ready t)
    | .fault f => .fault f
    | .refused r => .refused r

/-- The memory of the machine. -/
def Emulator.memory : Emulator → Memory
  | .constructed mem _ _ => mem
  | .ready s => s.mem

/-- `MemRead` for the host (R6, R56). -/
def Emulator.memRead (e : Emulator) (a : Addr) : Byte := e.memory.read a.toNat

/-- Saving memory in address order (R57). -/
def Emulator.saveImage (e : Emulator) : Image := e.memory.toImage

/-- The observation surface of a machine that has been Reset (R6); the stack pointer is not in the source's list. -/
structure Observation where
  x0 : Byte
  x1 : Byte
  x2 : Byte
  pc : Addr
  carry : Bool
  zero : Bool
  interrupt : Bool
  brk : Bool
  overflow : Bool
  negative : Bool
  changes : ChangeMap
  highlight : Nat
  deriving DecidableEq, Repr

/-- What the host reads between instructions (R6). -/
def State.observe (s : State) : Observation where
  x0 := s.r0
  x1 := s.r1
  x2 := s.r2
  pc := s.pc
  carry := queryFlag .carry s.sr
  zero := queryFlag .zero s.sr
  interrupt := queryFlag .interrupt s.sr
  brk := queryFlag .brk s.sr
  overflow := queryFlag .overflow s.sr
  negative := queryFlag .negative s.sr
  changes := s.cm
  highlight := s.hc

end Sys2Proof.Machine
end

