-- ==== Sys2Proof/Safety.lean ====
section
/-! DEFINITION. What the statements call a good state and a kept frame. -/

namespace Sys2Proof.Machine

/-- What every step keeps: memory and Change Map in canonical form, the highlight counter 0, 1 or 2 (R24), and B, V and
bits 3 and 5 of SR zero (R20, R21, R22). -/
def State.inv (s : State) : Bool :=
  s.mem.wf && s.cm.wf && s.hc ≤ 2 && s.sr &&& 0x78 == 0

/-- Every byte of memory reads in `t` as in `s`. -/
def SameMemory (s t : State) : Prop := ∀ a : Addr, t.memRead a = s.memRead a

/-- Every general register but those of a list holds in `t` what it holds in `s`. -/
def OtherRegsKept (changed : List Reg) (s t : State) : Prop := ∀ q : Reg, q ∉ changed → t.reg q = s.reg q

/-- The Change Map of `t` is that of `s` after writes to the addresses of a list: a written address keeps the entry it has
or gets the byte `s` holds there, any other address keeps what it has (R42, R43). -/
def TracksWrites (written : List Addr) (s t : State) : Prop :=
  ∀ a : Addr, lookupCell a.toNat t.cm =
    if a ∈ written then some ((lookupCell a.toNat s.cm).getD (s.memRead a)) else lookupCell a.toNat s.cm

/-- The Change Map of `s` gives back the memory `orig`: a listed address had the listed byte, an unlisted one has the byte
it had (R25). -/
def TracksSince (orig : Memory) (s : State) : Prop :=
  ∀ a : Addr, (lookupCell a.toNat s.cm).getD (s.memRead a) = orig.read a.toNat

/-- What a program can depend on: all but the highlight counter and the Change Map (R24, R25). -/
def State.programView (s : State) : State := { s with hc := 0, cm := [] }

end Sys2Proof.Machine
end

