-- ==== Sys2Proof/Certificates/Slice0/Obligations.lean ====
section
/-! DEFINITION. The statements about the machine. In a statement about `exec`, `s` is the state the fetch left: its PC is
the address of the raw byte plus 1 (R101). `operandAddress params m s` is the operand address the meaning computes; the
statement `ResolverGivesOperandAddress` says what it is. -/

open Sys2Proof Sys2Proof.Machine

/-! ## Reset and the host's commands -/

/-- R190, R195: what Reset writes, and that it leaves memory, the Change Map and the highlight counter alone. (The order
of the two vector reads, D20, is unobservable and not part of the statement.) -/
def Obligations.ResetCommandGivesResetValues : Prop :=
  ∀ s : State, ∃ t : State, (Emulator.ready s).reset = .ready t ∧
    t.r0 = 0x00 ∧ t.r1 = 0x00 ∧ t.r2 = 0x00 ∧ t.sr = 0x00 ∧ t.sp = 0xFD ∧
    t.pc = s.memRead 0xFFFD ++ s.memRead 0xFFFC ∧
    t.mem = s.mem ∧ t.cm = s.cm ∧ t.hc = s.hc

/-- R31, R191, which the spec marks as its decisions D10, D11 and D12: construction establishes memory, an empty Change
Map and a zero counter; `run` before the first Reset is refused; the first Reset gives registers, SR, SP and PC their
values. -/
def Obligations.PowerOnRunsOnlyAfterReset : Prop :=
  ∀ (p : Params) (img : Image) (n : Nat), paramsWf p = true →
    ∃ e : Emulator, Emulator.construct p img = .next e ∧
      (∀ a : Addr, e.memRead a = img.byte a) ∧
      Emulator.run p n e = .refused .neverReset ∧
      ∃ s : State, e.reset = .ready s ∧
        s.r0 = 0x00 ∧ s.r1 = 0x00 ∧ s.r2 = 0x00 ∧ s.sr = 0x00 ∧ s.sp = 0xFD ∧
        s.pc = img.byte 0xFFFD ++ img.byte 0xFFFC ∧
        (∀ a : Addr, s.memRead a = img.byte a) ∧ s.cm = [] ∧ s.hc = 0

/-- The model's choice (log 2): `State.reset` is the first Reset of a machine constructed on the image of zeros. -/
def Obligations.ResetStateIsFirstResetOfZeroImage : Prop :=
  ∃ e : Emulator, Emulator.construct params (Vector.replicate Config.memSize 0x00) = .next e ∧
    e.reset = .ready State.reset

/-- R57, whose Change Map clause the spec marks as its decision D13: a bulk load puts byte `k` of the image at address
`k`, changes nothing else, and undoes and is undone by a save. -/
def Obligations.BulkLoadAndSaveAreInverse : Prop :=
  (∀ (e : Emulator) (img : Image), (e.bulkLoad img).saveImage = img) ∧
  (∀ (e : Emulator) (img : Image) (a : Addr), (e.bulkLoad img).memRead a = img.byte a) ∧
  (∀ (e : Emulator) (a : Addr), (e.bulkLoad e.saveImage).memRead a = e.memRead a) ∧
  (∀ (s : State) (img : Image), ∃ m : Memory, (Emulator.ready s).bulkLoad img = .ready { s with mem := m }) ∧
  (∀ (mem : Memory) (hc : Nat) (cm : ChangeMap) (img : Image),
    ∃ m : Memory, (Emulator.constructed mem hc cm).bulkLoad img = .constructed m hc cm)

/-- R100, with the spec's decision D17 on `n` and D10 on the refusal: `run(n)` performs exactly `n` steps, `run(0)`
none, `run(a)` then `run(b)` is `run(a+b)`; it is refused on a machine never Reset. At the default parameters it is `n`
steps of the core. -/
def Obligations.RunPerformsExactlySteps : Prop :=
  (∀ (p : Params) (s : State), Emulator.run p 0 (.ready s) = .next (.ready s)) ∧
  (∀ (p : Params) (s t : State) (a b : Nat), Emulator.run p a (.ready s) = .next (.ready t) →
    Emulator.run p (a + b) (.ready s) = Emulator.run p b (.ready t)) ∧
  (∀ (p : Params) (s : State) (n : Nat), paramsWf p = true →
    ∃ t u : State, Emulator.run p n (.ready s) = .next (.ready t) ∧ stepWith p t = .next u ∧
      Emulator.run p (n + 1) (.ready s) = .next (.ready u)) ∧
  (∀ (p : Params) (mem : Memory) (hc : Nat) (cm : ChangeMap) (n : Nat),
    Emulator.run p n (.constructed mem hc cm) = .refused .neverReset) ∧
  (∀ (s : State) (n : Nat), ∃ t : State, Host.Core.run Sys2Proof.core n s = .next t ∧
    Emulator.run params n (.ready s) = .next (.ready t))

/-- R6: what the host observes of a machine that has been Reset, and that it reads any byte of memory. -/
def Obligations.ObservationReadsTheState : Prop :=
  ∀ s : State, s.observe.x0 = s.reg .r0 ∧ s.observe.x1 = s.reg .r1 ∧ s.observe.x2 = s.reg .r2 ∧ s.observe.pc = s.pc ∧
    s.observe.carry = s.sr.getLsbD 0 ∧ s.observe.zero = s.sr.getLsbD 1 ∧ s.observe.interrupt = s.sr.getLsbD 2 ∧
    s.observe.brk = s.sr.getLsbD 4 ∧ s.observe.overflow = s.sr.getLsbD 6 ∧ s.observe.negative = s.sr.getLsbD 7 ∧
    s.observe.changes = s.cm ∧ s.observe.highlight = s.hc ∧
    ∀ a : Addr, (Emulator.ready s).memRead a = s.memRead a

/-! ## Encoding -/

/-- A few words written out from R71 to R74, at the spec's own opcode and mode numbers and table (its decisions D1, D2,
D3), decode to the instructions they stand for. -/
def Obligations.WrittenWordsDecode : Prop :=
  [0x80, 0x41, 0x12, 0x63, 0x04, 0x45, 0x46, 0x47, 0xA8, 0x99, 0x4A, 0x6B, 0x8C, 0xFF].map decode =
    [.brkImp .r0, .ldImm .r0, .stAbs .r1, .addImm .r2, .jmpAbs .r0, .jpcImm .r0, .jpzImm .r0, .jpnImm .r0, .phImp .r2,
      .plImp .r1, .andImm .r0, .xorImm .r2, .clcImp .r0, .illegal 0xFF]

/-- R71, and R76 with the spec's decisions D1, D2, D3: the encoding formula; which bytes are legal; the default table;
every mnemonic in every mode with every register has its entry; 117 legal entries and 139 others. -/
def Obligations.DefaultTableIsIdentityOnLegalBytes : Prop :=
  (∀ (op : BitVec 4) (m r : BitVec 2), (combinedByte op m r).toNat = m.toNat * 64 + r.toNat * 16 + op.toNat) ∧
  (∀ b : Byte, fieldsInRange b = true ↔ b.toNat % 16 ≤ 0xC ∧ b.toNat / 16 % 4 ≤ 2 ∧ b.toNat / 64 ≤ 2) ∧
  (∀ b : Byte, fieldsInRange b = true ↔
    ∃ (op : Op) (m : Mode) (r : Reg), b = combinedByte (opBits op) (modeBits m) (regBits r)) ∧
  (∀ b : Byte, itabDefault b = if fieldsInRange b then b else 0x00) ∧
  (∀ (op : Op) (m : Mode) (r : Reg),
    decode (combinedByte (opBits op) (modeBits m) (regBits r)) = Instr.ofFields op m r) ∧
  ((List.range 256).filter fun n => fieldsInRange (BitVec.ofNat 8 n)).length = 117 ∧
  ((List.range 256).filter fun n => !fieldsInRange (BitVec.ofNat 8 n)).length = 139

/-- Decoding the bytes of a well-formed assembly line gives the line back, whatever follows it (R70, R71, R79, R80, R82,
at the numbers of the spec's decisions D1, D2, D3; the notation is its decision D16). -/
def Obligations.AssembleThenDisassemble : Prop :=
  ∀ (l : Asm) (rest : List Byte), l.wf = true → disassemble (assemble l ++ rest) = .ok (l, rest)

/-- Every sequence of bytes is the bytes of a well-formed line and a rest, or ends before its instruction does (R70,
R78, R79 at the default table, the spec's decision D3). -/
def Obligations.DisassembleThenAssemble : Prop :=
  (∀ (bs rest : List Byte) (l : Asm), disassemble bs = .ok (l, rest) → l.wf = true ∧ bs = assemble l ++ rest) ∧
  (∀ bs : List Byte, disassemble bs = .error .truncated ↔
    bs = [] ∨ ∃ (b : Byte) (rest : List Byte), bs = b :: rest ∧ rest.length < operandBytes (decode b).mode)

/-- R77, the spec's decision D4: well-formedness of a table, the default is well formed, an ill-formed one is refused,
and with a well-formed one every step completes (R102). -/
def Obligations.WellFormedTableMakesStepTotal : Prop :=
  (∀ p : Params, paramsWf p = true ↔ ∀ b : Byte,
    (p.itab b).toNat % 16 ≤ 0xC ∧ (p.itab b).toNat / 16 % 4 ≤ 2 ∧ (p.itab b).toNat / 64 ≤ 2) ∧
  paramsWf params = true ∧
  (∀ (p : Params) (s : State), paramsWf p = false → stepWith p s = .refused .illFormedTable) ∧
  (∀ (p : Params) (s : State), paramsWf p = true → ∃ t : State, stepWith p s = .next t)

/-! ## Flags -/

/-- R15, with the positions of R14: *set*, *clear*, *query* and assignment reach one bit each. -/
def Obligations.FlagAccessorsTouchOneBit : Prop :=
  ∀ f ∈ [(Flag.carry, 0), (.zero, 1), (.interrupt, 2), (.brk, 4), (.overflow, 6), (.negative, 7)], ∀ sr : Byte,
    queryFlag f.1 sr = sr.getLsbD f.2 ∧
    (∀ k : Nat, (setFlag f.1 sr).getLsbD k = if k = f.2 then true else sr.getLsbD k) ∧
    (∀ k : Nat, (clearFlag f.1 sr).getLsbD k = if k = f.2 then false else sr.getLsbD k) ∧
    (∀ (b : Bool) (k : Nat), (assignFlag f.1 b sr).getLsbD k = if k = f.2 then b else sr.getLsbD k)

/-- R30, the spec's decisions D5 and D8, at both values of `NEG_MODE`. -/
def Obligations.NegativeZeroUpdate : Prop :=
  ∀ v sr : Byte,
    setNZ .bit7 v sr = (sr &&& 0x7D) ||| (v &&& 0x80) ||| (if v = 0x00 then 0x02 else 0x00) ∧
    setNZ .never v sr = (sr &&& 0x7D) ||| (if v = 0x00 then 0x02 else 0x00)

/-- R16 to R22, of which the spec marks R19 to R22 as derived and R18 with its decision D5: which instructions can
change each flag; I is never cleared; B, V and bits 3 and 5 are never changed. -/
def Obligations.FlagsChangedOnlyByTheirWriters : Prop :=
  ∀ (i : Instr) (s t : State), exec i s = .next t →
    (t.sr.getLsbD 0 ≠ s.sr.getLsbD 0 → i.op ∈ [Op.add, .clc]) ∧
    (t.sr.getLsbD 1 ≠ s.sr.getLsbD 1 → i.op ∈ [Op.ld, .pl, .and, .xor, .add]) ∧
    (t.sr.getLsbD 7 ≠ s.sr.getLsbD 7 → i.op ∈ [Op.ld, .pl, .and, .xor]) ∧
    t.sr.getLsbD 2 = (s.sr.getLsbD 2 || i.op == .brk) ∧
    t.sr &&& 0x78 = s.sr &&& 0x78

/-- R18, R143, with the spec's decision D5: at `NEG_MODE = NEVER` a clear N stays clear and JPN falls through. -/
def Obligations.NegativeStaysClearAtNever : Prop :=
  ∀ (p : Params) (s t : State), p.negMode = .never → s.sr.getLsbD 7 = false → stepWith p s = .next t →
    t.sr.getLsbD 7 = false ∧
    ∀ (m : Mode) (r : Reg), fieldsOf (p.itab (s.memRead s.pc)) = some (.jpn, m, r) →
      t.pc = s.pc + 1 + BitVec.ofNat 16 (operandBytes m)

/-- R173, the spec's decision D19: I gates nothing. Setting I beforehand changes no step but for I itself and for the
status byte a trap pushes. -/
def Obligations.InterruptFlagGatesNothing : Prop :=
  ∀ s t : State, step s = .next t → ∃ t' : State, step (s.setSr (s.sr ||| 0x04)) = .next t' ∧
    t'.sr = t.sr ||| 0x04 ∧ (∀ q : Reg, t'.reg q = t.reg q) ∧ t'.pc = t.pc ∧ t'.sp = t.sp ∧ t'.hc = t.hc ∧
    t'.cm = t.cm ∧
    ∀ a : Addr, ((decode (s.memRead s.pc)).op = .brk → a ≠ stackAddr (s.sp - 2)) → t'.memRead a = t.memRead a

/-! ## Memory, Change Map, stack -/

/-- R42: the byte is stored, the first write to an address is tracked, nothing else changes. -/
def Obligations.MemWriteStoresAndTracks : Prop :=
  ∀ (s : State) (a : Addr) (v : Byte),
    (s.memWrite a v).memRead a = v ∧
    (∀ b : Addr, b ≠ a → (s.memWrite a v).memRead b = s.memRead b) ∧
    TracksWrites [a] s (s.memWrite a v) ∧
    OtherRegsKept [] s (s.memWrite a v) ∧ (s.memWrite a v).pc = s.pc ∧ (s.memWrite a v).sr = s.sr ∧
    (s.memWrite a v).sp = s.sp ∧ (s.memWrite a v).hc = s.hc

/-- R43: a step changes no entry of the Change Map and removes none; a new entry holds the byte before the step; a byte
that changed has an entry; Reset keeps the map. -/
def Obligations.ChangeMapInsertsOnce : Prop :=
  (∀ s t : State, step s = .next t →
    (∀ (a : Nat) (v : Byte), lookupCell a s.cm = some v → lookupCell a t.cm = some v) ∧
    (∀ a : Addr, lookupCell a.toNat s.cm = none →
      lookupCell a.toNat t.cm = none ∨ lookupCell a.toNat t.cm = some (s.memRead a)) ∧
    (∀ a : Addr, t.memRead a ≠ s.memRead a → lookupCell a.toNat t.cm ≠ none)) ∧
  (∀ s t : State, (Emulator.ready s).reset = .ready t → t.cm = s.cm)

/-- R25 with R42 and R43: through any number of steps from the first Reset, the Change Map and memory together give back
the image. -/
def Obligations.ChangeMapRecoversOriginalMemory : Prop :=
  (∀ (orig : Memory) (s t : State) (n : Nat), TracksSince orig s → Host.Core.run Sys2Proof.core n s = .next t →
    TracksSince orig t) ∧
  (∀ (p : Params) (img : Image) (e : Emulator), Emulator.construct p img = .next e →
    ∃ s : State, e.reset = .ready s ∧ TracksSince (Memory.ofImage img) s)

/-- Two memories in canonical form that read alike at every address are equal as data (the model's form of memory, log
16). -/
def Obligations.CanonicalMemoriesReadingAlikeAreEqual : Prop :=
  ∀ m m' : Memory, m.wf = true → m'.wf = true → (∀ a : Addr, m.read a.toNat = m'.read a.toNat) → m = m'

/-- R59, R60: the two stack primitives. -/
def Obligations.StackPrimitivesFollowTheRules : Prop :=
  ∀ (s : State) (v : Byte),
    s.push v = (s.memWrite (0x0100 + s.sp.setWidth 16) v).setSp (s.sp - 1) ∧
    (s.push v).memRead (0x0100 + s.sp.setWidth 16) = v ∧
    s.pop = (s.memRead (0x0100 + (s.sp + 1).setWidth 16), s.setSp (s.sp + 1))

/-- R61: push and pop round trip at every SP; pushes stay in the page; a pop with nothing pushed returns what the page
holds; a 257th push overwrites the first pushed byte. -/
def Obligations.StackWrapsInItsPage : Prop :=
  (∀ (s : State) (v : Byte), (s.push v).pop.1 = v ∧ (s.push v).pop.2.sp = s.sp) ∧
  (∀ sp : Byte, 0x0100 ≤ (stackAddr sp).toNat ∧ (stackAddr sp).toNat ≤ 0x01FF) ∧
  (∀ s : State, s.pop.1 = s.memRead (stackAddr (s.sp + 1)) ∧ s.pop.2.mem = s.mem) ∧
  (∀ (s : State) (v0 v : Byte) (vs : List Byte), vs.length = 255 →
    ((v0 :: vs).foldl State.push s).memRead (stackAddr s.sp) = v0 ∧
    (((v0 :: vs).foldl State.push s).push v).memRead (stackAddr s.sp) = v)

/-- R177, derived by the spec from R110 (pushed PC: its decision D9) and R61: the page holds 85 trap frames; the 86th
nested trap overwrites the oldest, and I = 1 prevents none of them. -/
def Obligations.EightySixthTrapOverwritesOldestFrame : Prop :=
  ∀ s : State,
    (∀ k : Nat, k ≤ 84 → ∀ t : State, t = (List.range (k + 1)).foldl (fun u _ => u.takeTrap) s →
      t.sp = s.sp - BitVec.ofNat 8 (3 * (k + 1)) ∧
      t.memRead (stackAddr s.sp) = (s.pc + 1).extractLsb' 8 8 ∧
      t.memRead (stackAddr (s.sp - 1)) = (s.pc + 1).extractLsb' 0 8 ∧
      t.memRead (stackAddr (s.sp - 2)) = s.sr) ∧
    ∀ t : State, t = (List.range 86).foldl (fun u _ => u.takeTrap) s →
      t.memRead (stackAddr s.sp) = (s.readWord 0xFFFE 0xFFFF + 1).extractLsb' 0 8 ∧
      t.memRead (stackAddr (s.sp - 1)) = setFlag .interrupt s.sr

/-- R53, which the spec marks as derived: a byte that ST or PH stores where the PC then points is the raw byte of the
very next instruction. -/
def Obligations.StoredByteIsFetchedNext : Prop :=
  ∀ (r : Reg) (s t : State),
    ∀ f ∈ [(Instr.stAbs r, operandAddress params .absolute s), (.stImp r, 0x0000), (.phAbs r, stackAddr s.sp),
      (.phImm r, stackAddr s.sp), (.phImp r, stackAddr s.sp)],
    exec f.1 s = .next t → t.pc = f.2 → step t = exec (decode (s.reg r)) (t.setPc (t.pc + 1))

/-! ## The step -/

/-- R101, R79, R80 at the default table and address width (the spec's decisions D3, D6): where the bytes at the PC are
those of an assembly line, the step runs its instruction past the fetched byte, and its operand is the line's. -/
def Obligations.StepRunsTheLineAtPc : Prop :=
  ∀ (s : State) (l : Asm) (rest : List Byte),
    disassemble [s.memRead s.pc, s.memRead (s.pc + 1), s.memRead (s.pc + 2)] = .ok (l, rest) →
    step s = exec l.instr (s.setPc (s.pc + 1)) ∧
    match l.operand with
    | .address a => operandAddress params l.instr.mode (s.setPc (s.pc + 1)) = a
    | .value v => s.memRead (operandAddress params l.instr.mode (s.setPc (s.pc + 1))) = v
    | .nothing => operandAddress params l.instr.mode (s.setPc (s.pc + 1)) = 0x0000

/-- The placed word is what the next step runs (the model's stand-in for a bulk load, log 3). -/
def Obligations.PlacedWordRunsNext : Prop :=
  ∀ (s : State) (b : Byte),
    step (s.withFetchWord 8 b.toNat) = exec (decode b) ((s.withFetchWord 8 b.toNat).setPc (s.pc + 1)) ∧
    (s.withFetchWord 8 b.toNat).cm = s.cm

/-- R101, with the handlers of R106: the five phases of a step, the handler being the one of the combined byte's opcode
field. The table is the default of R76 and the numbers are those of R72 and R73, the spec's decisions D1, D2, D3 (log
9); R74 gives the register numbers. The default parameters of the resolver and the handlers are its decisions D5, D6, D7
(log 15). The last clause, that the core is the parametric machine at the default parameters, rests on the model's
choice to fix the core there (DESIGN CHOICE, log 1). -/
def Obligations.StepFollowsTheFivePhases : Prop :=
  ∀ s : State, ∃ (op : Op) (m : Mode) (r : Reg),
    let b := s.memRead s.pc
    let c := itabDefault b
    let s2 := (s.setPc (s.pc + 1)).setHc 0
    c.toNat % 16 = (opBits op).toNat ∧ c.toNat / 16 % 4 = (regBits r).toNat ∧ c.toNat / 64 = (modeBits m).toNat ∧
    step s = .next (handlerOf params op r (resolve params m s2).1 (resolve params m s2).2) ∧
    step s = stepWith params s

/-- R13, which the spec marks as derived, at the defaults of its decisions D6, D7 and D9: where each instruction leaves
the PC, and the value BRK pushes. -/
def Obligations.ProgramCounterAfterEachInstruction : Prop :=
  ∀ s : State, ∃ t : State, step s = .next t ∧
    let i := decode (s.memRead s.pc)
    let next := s.pc + 1 + BitVec.ofNat 16 (operandBytes i.mode)
    let ea := operandAddress params i.mode (s.setPc (s.pc + 1))
    let d := (s.memRead ea).setWidth 16
    (t.pc = match i.op with
      | .ld | .st | .add | .ph | .pl | .and | .xor | .clc => next
      | .jmp => ea
      | .jpc => if s.sr.getLsbD 0 then next + d else next
      | .jpz => if s.sr.getLsbD 1 then next + d else next
      | .jpn => if s.sr.getLsbD 7 then next + d else next
      | .brk => t.memRead 0xFFFF ++ t.memRead 0xFFFE) ∧
    (i.op = .brk → t.memRead (stackAddr s.sp) ++ t.memRead (stackAddr (s.sp - 1)) = next + 1)

/-- R103 (the spec's decision D6), R104, R105 (derived), at every parameter value. -/
def Obligations.ResolverGivesOperandAddress : Prop :=
  ∀ (p : Params) (s : State),
    (resolve p .absolute s).1 =
      (match p.absWidth with
        | .full => s.memRead (s.pc + 1) ++ s.memRead s.pc
        | .low => (0x00 : Byte) ++ s.memRead s.pc) ∧
    (resolve p .absolute s).2 = { s with pc := s.pc + 2, hc := 2 } ∧
    (resolve p .immediate s).1 = s.pc ∧
    (resolve p .immediate s).2 = { s with pc := s.pc + 1, hc := s.hc + 1 } ∧
    resolve p .implied s = (0x0000, s)

/-! ## The instructions -/

/-- R110, R111: BRK in its three modes, and every illegal byte, which executes as BRK.abs R0 (R78). The pushed PC is the
spec's decision D9, the raw bytes are at its decisions D1, D2, D3. -/
def Obligations.BreakTakesTheTrap : Prop :=
  [0x00, 0x10, 0x20, 0x40, 0x50, 0x60, 0x80, 0x90, 0xA0].map decode =
    [.brkAbs .r0, .brkAbs .r1, .brkAbs .r2, .brkImm .r0, .brkImm .r1, .brkImm .r2, .brkImp .r0, .brkImp .r1,
      .brkImp .r2] ∧
  (∀ b : Byte, illegalByte b = true → decode b = .illegal b) ∧
  ∀ (r : Reg) (raw : Byte) (s : State),
    ∀ f ∈ [(Instr.brkAbs r, 2), (.brkImm r, 1), (.brkImp r, 0), (.illegal raw, 2)],
    ∃ t : State, exec f.1 s = .next t ∧
      let saved := s.pc + BitVec.ofNat 16 f.2 + 1
      OtherRegsKept [] s t ∧
      t.sr = s.sr ||| 0x04 ∧
      t.sp = s.sp - 3 ∧
      t.hc = f.2 ∧
      t.pc = s.memRead 0xFFFF ++ s.memRead 0xFFFE ∧
      t.memRead (stackAddr s.sp) = saved.extractLsb' 8 8 ∧
      t.memRead (stackAddr (s.sp - 1)) = saved.extractLsb' 0 8 ∧
      t.memRead (stackAddr (s.sp - 2)) = s.sr ∧
      (∀ a : Addr, a ∉ [stackAddr s.sp, stackAddr (s.sp - 1), stackAddr (s.sp - 2)] → t.memRead a = s.memRead a) ∧
      TracksWrites [stackAddr s.sp, stackAddr (s.sp - 1), stackAddr (s.sp - 2)] s t

/-- R78: the 139 illegal bytes (as the rule lists them); a step on one is a step of BRK.abs R0, two operand bytes
consumed, the address of the raw byte plus 4 pushed. -/
def Obligations.IllegalBytesExecuteAsBreak : Prop :=
  ((List.range 256).filter fun n => illegalByte (BitVec.ofNat 8 n)).length = 139 ∧
  (∀ b : Byte, illegalByte b = true ↔ fieldsInRange b = false) ∧
  ∀ s : State, illegalByte (s.memRead s.pc) = true →
    ∃ t : State, step s = .next t ∧ exec (.brkAbs .r0) (s.setPc (s.pc + 1)) = .next t ∧ t.hc = 2 ∧
      t.memRead (stackAddr s.sp) ++ t.memRead (stackAddr (s.sp - 1)) = s.pc + 4

/-- R120, with the flag update of R30 (the spec's decisions D5, D8): LD in its three modes; at `NEG_MODE = NEVER` N is
cleared. Raw bytes at its decisions D1, D2, D3; Absolute addresses at D6. -/
def Obligations.LoadReadsTheOperandByte : Prop :=
  [0x01, 0x11, 0x21, 0x41, 0x51, 0x61, 0x81, 0x91, 0xA1].map decode =
    [.ldAbs .r0, .ldAbs .r1, .ldAbs .r2, .ldImm .r0, .ldImm .r1, .ldImm .r2, .ldImp .r0, .ldImp .r1, .ldImp .r2] ∧
  (∀ (p : Params) (r : Reg) (ea : Addr) (s : State), p.negMode = .never →
    (loadHandler p r ea s).sr = (s.sr &&& 0x7D) ||| (if s.memRead ea = 0x00 then 0x02 else 0x00) ∧
    (loadHandler p r ea s).reg r = s.memRead ea) ∧
  ∀ (r : Reg) (s : State), ∀ f ∈ [(Instr.ldAbs r, Mode.absolute), (.ldImm r, .immediate), (.ldImp r, .implied)],
    ∃ t : State, exec f.1 s = .next t ∧
      let v := s.memRead (operandAddress params f.2 s)
      t.reg r = v ∧ OtherRegsKept [r] s t ∧
      t.sr = (s.sr &&& 0x7D) ||| (v &&& 0x80) ||| (if v = 0x00 then 0x02 else 0x00) ∧
      t.pc = s.pc + BitVec.ofNat 16 (operandBytes f.2) ∧ t.hc = operandBytes f.2 ∧ t.sp = s.sp ∧
      SameMemory s t ∧ t.cm = s.cm

/-- R121: ST in its three modes. Raw bytes at the spec's decisions D1, D2, D3; Absolute addresses at D6. -/
def Obligations.StoreWritesTheOperandAddress : Prop :=
  [0x02, 0x12, 0x22, 0x42, 0x52, 0x62, 0x82, 0x92, 0xA2].map decode =
    [.stAbs .r0, .stAbs .r1, .stAbs .r2, .stImm .r0, .stImm .r1, .stImm .r2, .stImp .r0, .stImp .r1, .stImp .r2] ∧
  ∀ (r : Reg) (s : State), ∀ f ∈ [(Instr.stAbs r, Mode.absolute), (.stImm r, .immediate), (.stImp r, .implied)],
    ∃ t : State, exec f.1 s = .next t ∧
      t.memRead (operandAddress params f.2 s) = s.reg r ∧
      (∀ a : Addr, a ≠ operandAddress params f.2 s → t.memRead a = s.memRead a) ∧
      TracksWrites [operandAddress params f.2 s] s t ∧
      OtherRegsKept [] s t ∧ t.sr = s.sr ∧
      t.pc = s.pc + BitVec.ofNat 16 (operandBytes f.2) ∧ t.hc = operandBytes f.2 ∧ t.sp = s.sp

/-- R130, whose flags are assigned by the spec's decision D8: ADD in its three modes, the sum taken exactly. Raw bytes
at its decisions D1, D2, D3; Absolute addresses at D6. -/
def Obligations.AddSumsWithCarry : Prop :=
  [0x03, 0x13, 0x23, 0x43, 0x53, 0x63, 0x83, 0x93, 0xA3].map decode =
    [.addAbs .r0, .addAbs .r1, .addAbs .r2, .addImm .r0, .addImm .r1, .addImm .r2, .addImp .r0, .addImp .r1,
      .addImp .r2] ∧
  ∀ (r : Reg) (s : State), ∀ f ∈ [(Instr.addAbs r, Mode.absolute), (.addImm r, .immediate), (.addImp r, .implied)],
    ∃ t : State, exec f.1 s = .next t ∧
      let sum := (s.memRead (operandAddress params f.2 s)).toNat + (s.reg r).toNat + (if s.sr.getLsbD 0 then 1 else 0)
      t.reg r = BitVec.ofNat 8 sum ∧ OtherRegsKept [r] s t ∧
      t.sr = (s.sr &&& 0xFC) ||| (if 0xFF < sum then 0x01 else 0x00) ||| (if sum % 256 = 0 then 0x02 else 0x00) ∧
      t.pc = s.pc + BitVec.ofNat 16 (operandBytes f.2) ∧ t.hc = operandBytes f.2 ∧ t.sp = s.sp ∧
      SameMemory s t ∧ t.cm = s.cm

/-- R140: JMP in its three modes. Raw bytes at the spec's decisions D1, D2, D3; Absolute addresses at D6. -/
def Obligations.JumpGoesToTheOperandAddress : Prop :=
  [0x04, 0x14, 0x24, 0x44, 0x54, 0x64, 0x84, 0x94, 0xA4].map decode =
    [.jmpAbs .r0, .jmpAbs .r1, .jmpAbs .r2, .jmpImm .r0, .jmpImm .r1, .jmpImm .r2, .jmpImp .r0, .jmpImp .r1,
      .jmpImp .r2] ∧
  ∀ (r : Reg) (s : State), ∀ f ∈ [(Instr.jmpAbs r, Mode.absolute), (.jmpImm r, .immediate), (.jmpImp r, .implied)],
    ∃ t : State, exec f.1 s = .next t ∧
      t.pc = operandAddress params f.2 s ∧ t.hc = operandBytes f.2 ∧
      OtherRegsKept [] s t ∧ t.sr = s.sr ∧ t.sp = s.sp ∧ SameMemory s t ∧ t.cm = s.cm

/-- R144, the spec's decision D7: the displacement at each value of `JREL`, and what the three conditional jumps do with
it. -/
def Obligations.DisplacementFollowsJrel : Prop :=
  ∀ (p : Params) (f : Flag) (ea : Addr) (s : State),
    (p.jrel = .zextByte → (displacement p ea s).toNat = (s.memRead ea).toNat) ∧
    (p.jrel = .sextByte → (displacement p ea s).toInt = (s.memRead ea).toInt) ∧
    (p.jrel = .address → displacement p ea s = ea) ∧
    params.jrel = .zextByte ∧
    (queryFlag f s.sr = true → jumpIfHandler f p ea s = { s with pc := s.pc + displacement p ea s }) ∧
    (queryFlag f s.sr = false → jumpIfHandler f p ea s = s)

/-- R141, R142, R143: JPC, JPZ and JPN in their three modes, at the default displacement of R144 (the spec's decision
D7). Raw bytes at its decisions D1, D2, D3; Absolute addresses at D6. -/
def Obligations.ConditionalJumpsAddTheOperandByte : Prop :=
  [0x05, 0x15, 0x25, 0x45, 0x55, 0x65, 0x85, 0x95, 0xA5].map decode =
    [.jpcAbs .r0, .jpcAbs .r1, .jpcAbs .r2, .jpcImm .r0, .jpcImm .r1, .jpcImm .r2, .jpcImp .r0, .jpcImp .r1,
      .jpcImp .r2] ∧
  [0x06, 0x16, 0x26, 0x46, 0x56, 0x66, 0x86, 0x96, 0xA6].map decode =
    [.jpzAbs .r0, .jpzAbs .r1, .jpzAbs .r2, .jpzImm .r0, .jpzImm .r1, .jpzImm .r2, .jpzImp .r0, .jpzImp .r1,
      .jpzImp .r2] ∧
  [0x07, 0x17, 0x27, 0x47, 0x57, 0x67, 0x87, 0x97, 0xA7].map decode =
    [.jpnAbs .r0, .jpnAbs .r1, .jpnAbs .r2, .jpnImm .r0, .jpnImm .r1, .jpnImm .r2, .jpnImp .r0, .jpnImp .r1,
      .jpnImp .r2] ∧
  ∀ (r : Reg) (s : State),
    ∀ f ∈ [(Instr.jpcAbs r, Mode.absolute, 0), (.jpcImm r, .immediate, 0), (.jpcImp r, .implied, 0),
      (.jpzAbs r, .absolute, 1), (.jpzImm r, .immediate, 1), (.jpzImp r, .implied, 1),
      (.jpnAbs r, .absolute, 7), (.jpnImm r, .immediate, 7), (.jpnImp r, .implied, 7)],
    ∃ t : State, exec f.1 s = .next t ∧
      let next := s.pc + BitVec.ofNat 16 (operandBytes f.2.1)
      t.pc = (if s.sr.getLsbD f.2.2 then next + (s.memRead (operandAddress params f.2.1 s)).setWidth 16 else next) ∧
      t.hc = operandBytes f.2.1 ∧
      OtherRegsKept [] s t ∧ t.sr = s.sr ∧ t.sp = s.sp ∧ SameMemory s t ∧ t.cm = s.cm

/-- R150: PH in its three modes. Raw bytes at the spec's decisions D1, D2, D3. -/
def Obligations.PushStoresTheRegister : Prop :=
  [0x08, 0x18, 0x28, 0x48, 0x58, 0x68, 0x88, 0x98, 0xA8].map decode =
    [.phAbs .r0, .phAbs .r1, .phAbs .r2, .phImm .r0, .phImm .r1, .phImm .r2, .phImp .r0, .phImp .r1, .phImp .r2] ∧
  ∀ (r : Reg) (s : State), ∀ f ∈ [(Instr.phAbs r, Mode.absolute), (.phImm r, .immediate), (.phImp r, .implied)],
    ∃ t : State, exec f.1 s = .next t ∧
      t.memRead (stackAddr s.sp) = s.reg r ∧
      (∀ a : Addr, a ≠ stackAddr s.sp → t.memRead a = s.memRead a) ∧
      TracksWrites [stackAddr s.sp] s t ∧
      t.sp = s.sp - 1 ∧ OtherRegsKept [] s t ∧ t.sr = s.sr ∧
      t.pc = s.pc + BitVec.ofNat 16 (operandBytes f.2) ∧ t.hc = operandBytes f.2

/-- R151, with the flag update of R30 (the spec's decisions D5, D8): PL in its three modes. Raw bytes at its decisions
D1, D2, D3. -/
def Obligations.PullLoadsTheRegister : Prop :=
  [0x09, 0x19, 0x29, 0x49, 0x59, 0x69, 0x89, 0x99, 0xA9].map decode =
    [.plAbs .r0, .plAbs .r1, .plAbs .r2, .plImm .r0, .plImm .r1, .plImm .r2, .plImp .r0, .plImp .r1, .plImp .r2] ∧
  ∀ (r : Reg) (s : State), ∀ f ∈ [(Instr.plAbs r, Mode.absolute), (.plImm r, .immediate), (.plImp r, .implied)],
    ∃ t : State, exec f.1 s = .next t ∧
      let v := s.memRead (stackAddr (s.sp + 1))
      t.reg r = v ∧ OtherRegsKept [r] s t ∧
      t.sr = (s.sr &&& 0x7D) ||| (v &&& 0x80) ||| (if v = 0x00 then 0x02 else 0x00) ∧
      t.sp = s.sp + 1 ∧
      t.pc = s.pc + BitVec.ofNat 16 (operandBytes f.2) ∧ t.hc = operandBytes f.2 ∧
      SameMemory s t ∧ t.cm = s.cm

/-- R160, R161, with the flag update of R30 (the spec's decisions D5, D8): AND and XOR in their three modes. Raw bytes
at its decisions D1, D2, D3; Absolute addresses at D6. -/
def Obligations.AndXorCombineWithTheOperandByte : Prop :=
  [0x0A, 0x1A, 0x2A, 0x4A, 0x5A, 0x6A, 0x8A, 0x9A, 0xAA].map decode =
    [.andAbs .r0, .andAbs .r1, .andAbs .r2, .andImm .r0, .andImm .r1, .andImm .r2, .andImp .r0, .andImp .r1,
      .andImp .r2] ∧
  [0x0B, 0x1B, 0x2B, 0x4B, 0x5B, 0x6B, 0x8B, 0x9B, 0xAB].map decode =
    [.xorAbs .r0, .xorAbs .r1, .xorAbs .r2, .xorImm .r0, .xorImm .r1, .xorImm .r2, .xorImp .r0, .xorImp .r1,
      .xorImp .r2] ∧
  ∀ (r : Reg) (s : State),
    ∀ f ∈ [(Instr.andAbs r, Mode.absolute, true), (.andImm r, .immediate, true), (.andImp r, .implied, true),
      (.xorAbs r, .absolute, false), (.xorImm r, .immediate, false), (.xorImp r, .implied, false)],
    ∃ t : State, exec f.1 s = .next t ∧
      let m := s.memRead (operandAddress params f.2.1 s)
      let v := if f.2.2 then s.reg r &&& m else s.reg r ^^^ m
      t.reg r = v ∧ OtherRegsKept [r] s t ∧
      t.sr = (s.sr &&& 0x7D) ||| (v &&& 0x80) ||| (if v = 0x00 then 0x02 else 0x00) ∧
      t.pc = s.pc + BitVec.ofNat 16 (operandBytes f.2.1) ∧ t.hc = operandBytes f.2.1 ∧ t.sp = s.sp ∧
      SameMemory s t ∧ t.cm = s.cm

/-- R162: CLC in its three modes. Raw bytes at the spec's decisions D1, D2, D3. -/
def Obligations.ClearCarryClearsOnlyCarry : Prop :=
  [0x0C, 0x1C, 0x2C, 0x4C, 0x5C, 0x6C, 0x8C, 0x9C, 0xAC].map decode =
    [.clcAbs .r0, .clcAbs .r1, .clcAbs .r2, .clcImm .r0, .clcImm .r1, .clcImm .r2, .clcImp .r0, .clcImp .r1,
      .clcImp .r2] ∧
  ∀ (r : Reg) (s : State), ∀ f ∈ [(Instr.clcAbs r, Mode.absolute), (.clcImm r, .immediate), (.clcImp r, .implied)],
    ∃ t : State, exec f.1 s = .next t ∧
      t.sr = s.sr &&& 0xFE ∧ OtherRegsKept [] s t ∧
      t.pc = s.pc + BitVec.ofNat 16 (operandBytes f.2) ∧ t.hc = operandBytes f.2 ∧ t.sp = s.sp ∧
      SameMemory s t ∧ t.cm = s.cm

/-- R151, the corner case, with the flag update of R30 (the spec's decisions D5, D8): PH of one register and PL of
another copies the value and sets N and Z; SP is back where it was. -/
def Obligations.PushThenPullCopiesARegister : Prop :=
  ∀ (a b : Reg) (s : State), ∃ t u : State, exec (.phImp a) s = .next t ∧ exec (.plImp b) t = .next u ∧
    u.reg b = s.reg a ∧ OtherRegsKept [b] s u ∧ u.sp = s.sp ∧
    u.sr = (s.sr &&& 0x7D) ||| (s.reg a &&& 0x80) ||| (if s.reg a = 0x00 then 0x02 else 0x00)

/-! ## The whole machine -/

/-- R10: three ordinary registers; which instructions write the selected one; an instruction that does not read a
register is blind to it; all are 0 after Reset. -/
def Obligations.RegistersAreOrdinaryAndSelected : Prop :=
  (∀ (s : State) (r q : Reg) (v : Byte), (s.setReg r v).reg q = if q = r then v else s.reg q) ∧
  (∀ (i : Instr) (s t : State) (q : Reg), exec i s = .next t → t.reg q ≠ s.reg q →
    q = i.reg ∧ i.op ∈ [Op.ld, .add, .pl, .and, .xor]) ∧
  (∀ (i : Instr) (s t : State) (q : Reg) (v : Byte),
    (q ≠ i.reg ∨ i.op ∉ [Op.st, .add, .ph, .and, .xor]) → exec i s = .next t →
    exec i (s.setReg q v) = .next (if q = i.reg ∧ i.op ∈ [Op.ld, .pl] then t else t.setReg q v)) ∧
  (∀ (s : State) (q : Reg), s.hostReset.reg q = 0x00)

/-- R23: SP moves by PH, PL and BRK alone, modulo 256, and Reset sets it. -/
def Obligations.StackPointerMovesByStackInstructions : Prop :=
  (∀ (i : Instr) (s t : State), exec i s = .next t →
    t.sp = match i.op with
      | .ph => s.sp - 1
      | .pl => s.sp + 1
      | .brk => s.sp - 3
      | .ld | .st | .add | .jmp | .jpc | .jpz | .jpn | .and | .xor | .clc => s.sp) ∧
  (∀ s : State, s.hostReset.sp = 0xFD) ∧
  ∀ sp : Byte, (stackAddr sp).toNat = 0x0100 + sp.toNat

/-- R46 with R42: a byte of memory, or an entry of the Change Map, changes only by ST at its operand address, and by PH
and BRK at the stack's addresses. -/
def Obligations.MemoryChangesOnlyWhereStored : Prop :=
  ∀ (i : Instr) (s t : State) (a : Addr), exec i s = .next t →
    (t.memRead a ≠ s.memRead a ∨ lookupCell a.toNat t.cm ≠ lookupCell a.toNat s.cm) →
    match i.op with
    | .st => a = operandAddress params i.mode s
    | .ph => a = stackAddr s.sp
    | .brk => a = stackAddr s.sp ∨ a = stackAddr (s.sp - 1) ∨ a = stackAddr (s.sp - 2)
    | .ld | .add | .jmp | .jpc | .jpz | .jpn | .pl | .and | .xor | .clc => False

/-- R24 (its width is the spec's decision D12), R25, R182 (derived): the highlight counter and the Change Map cannot
influence execution, through any number of steps. -/
def Obligations.ObservationStateIsInvisible : Prop :=
  (∀ (s : State) (h : Nat) (c : ChangeMap) (n : Nat), ∃ t t' : State,
    Host.Core.run Sys2Proof.core n s = .next t ∧
    Host.Core.run Sys2Proof.core n { s with hc := h, cm := c } = .next t' ∧
    t'.programView = t.programView ∧ (0 < n → t'.hc = t.hc)) ∧
  (∀ s t : State, step s = .next t → t.hc = operandBytes (decode (s.memRead s.pc)).mode)

/-- The state after Reset meets the invariant that `EveryStepKeepsInvariant` names (its canonical forms are the model's,
log 16). -/
def Obligations.ResetStateMeetsInvariant : Prop := State.reset.inv = true

/-- Every step, every Reset and every bulk load keeps the invariant: canonical memory and Change Map (the model's form,
log 16), the highlight counter at most 2 (R24, D12), B, V and bits 3 and 5 of SR zero (R20, R21, R22, derived). -/
def Obligations.EveryStepKeepsInvariant : Prop :=
  (∀ s t : State, s.inv = true → step s = .next t → t.inv = true) ∧
  (∀ s t : State, s.inv = true → (Emulator.ready s).reset = .ready t → t.inv = true) ∧
  (∀ (s t : State) (img : Image), s.inv = true → (Emulator.ready s).bulkLoad img = .ready t → t.inv = true)
end

