-- ==== Sys2Proof/Laws/Flags.lean ====
section
/-! SUPPORT. The flag accessors and flag updates, bit by bit. -/

namespace Sys2Proof.Machine

theorem flagMask_eq (f : Flag) : flagMask f = BitVec.twoPow 8 (flagBit f) := by cases f <;> rfl

theorem flagBit_lt (f : Flag) : flagBit f < 8 := by cases f <;> decide

theorem getLsbD_setFlag (f : Flag) (sr : Byte) (k : Nat) :
    (setFlag f sr).getLsbD k = (decide (k = flagBit f) || sr.getLsbD k) := by
  have := flagBit_lt f
  rw [setFlag, flagMask_eq, BitVec.getLsbD_or, BitVec.getLsbD_twoPow, Bool.or_comm]
  congr 1
  by_cases h : k = flagBit f
  · subst h; simp [this]
  · simp [h, Ne.symm h]

theorem getLsbD_clearFlag (f : Flag) (sr : Byte) (k : Nat) :
    (clearFlag f sr).getLsbD k = (!decide (k = flagBit f) && sr.getLsbD k) := by
  have := flagBit_lt f
  rw [clearFlag, flagMask_eq, BitVec.getLsbD_and, BitVec.getLsbD_not, BitVec.getLsbD_twoPow]
  by_cases h : k = flagBit f
  · subst h; simp [this]
  · by_cases hk : k < 8
    · simp [h, Ne.symm h, hk]
    · simp [h, BitVec.getLsbD_of_ge sr k (by omega)]

theorem queryFlag_eq (f : Flag) (sr : Byte) : queryFlag f sr = sr.getLsbD (flagBit f) := by
  cases f <;> revert sr <;> decide

theorem getLsbD_assignFlag (f : Flag) (b : Bool) (sr : Byte) (k : Nat) :
    (assignFlag f b sr).getLsbD k = if k = flagBit f then b else sr.getLsbD k := by
  unfold assignFlag
  cases b
  · simp only [Bool.false_eq_true, if_false, getLsbD_clearFlag]
    by_cases h : k = flagBit f <;> simp [h]
  · simp only [if_true, getLsbD_setFlag]
    by_cases h : k = flagBit f <;> simp [h]

/-- SetNZ writes bits 7 and 1 and no other (R30). -/
theorem getLsbD_setNZ (n : NegMode) (v sr : Byte) (k : Nat) :
    (setNZ n v sr).getLsbD k =
      if k = 1 then v == 0 else if k = 7 then (match n with | .bit7 => v.getLsbD 7 | .never => false)
      else sr.getLsbD k := by
  unfold setNZ
  simp only [getLsbD_assignFlag]
  rfl

/-- ADD's flag update writes bits 0 and 1 and no other (R130). -/
theorem getLsbD_setCZ (sum : BitVec 9) (sr : Byte) (k : Nat) :
    (setCZ sum sr).getLsbD k =
      if k = 1 then sum.setWidth 8 == 0 else if k = 0 then sum.getLsbD 8 else sr.getLsbD k := by
  unfold setCZ
  simp only [getLsbD_assignFlag]
  rfl

/-- The 9-bit sum is exact (R130). -/
theorem addSum_toNat (m x : Byte) (c : Bool) :
    (addSum m x c).toNat = m.toNat + x.toNat + c.toNat := by
  have h1 := m.isLt
  have h2 := x.isLt
  have h3 : c.toNat ≤ 1 := Bool.toNat_le c
  simp only [addSum, BitVec.toNat_add, BitVec.toNat_setWidth, BitVec.toNat_ofBool]
  omega

end Sys2Proof.Machine
end

