-- ==== Sys2Proof/Laws/Memory.lean ====
section
/-! SUPPORT. Memory and the Change Map: read after write, and the canonical form is kept. -/

namespace Sys2Proof.Machine

/-! ## Lists of cells -/

theorem lookupCell_insertCell (j k : Nat) (v : Byte) (cs : List Host.Cell) :
    lookupCell j (insertCell k v cs) = if k = j then some v else lookupCell j cs := by
  induction cs with
  | nil => simp [insertCell, lookupCell]
  | cons c cs ih =>
    unfold insertCell
    split
    · simp [lookupCell]
    · split
      · rename_i hk
        by_cases h : k = j <;> simp [lookupCell, h, ← hk]
      · by_cases h : c.1 = j
        · have : k ≠ j := by omega
          simp [lookupCell, h, this]
        · simp [lookupCell, h, ih]

theorem lookupCell_eraseCell (j k : Nat) (cs : List Host.Cell) :
    lookupCell j (eraseCell k cs) = if k = j then none else lookupCell j cs := by
  induction cs with
  | nil => simp [eraseCell, lookupCell]
  | cons c cs ih =>
    unfold eraseCell at ih ⊢
    by_cases hk : c.1 = k
    · rw [List.filter_cons_of_neg (by simpa using hk), ih]
      by_cases hj : k = j <;> simp [lookupCell, hk, hj]
    · rw [List.filter_cons_of_pos (by simpa using hk), lookupCell, lookupCell, ih]
      by_cases hj : c.1 = j
      · have : k ≠ j := fun h => hk (hj.trans h.symm)
        simp [hj, this]
      · simp [hj]

/-- Every address of a rising list whose first address is above a bound is above the bound. -/
theorem cellsRising_cons (c : Host.Cell) (cs : List Host.Cell) :
    cellsRising (c :: cs) = true ↔
      c.1 < Config.memSize ∧ (∀ d ∈ cs, c.1 < d.1) ∧ cellsRising cs = true := by
  induction cs generalizing c with
  | nil => simp [cellsRising]
  | cons d cs ih =>
    rw [cellsRising, Bool.and_eq_true, decide_eq_true_iff, ih]
    constructor
    · rintro ⟨hcd, hd, hall, hr⟩
      refine ⟨by omega, ?_, hd, hall, hr⟩
      intro e he
      rcases List.mem_cons.1 he with rfl | he
      · exact hcd
      · exact Nat.lt_trans hcd (hall e he)
    · rintro ⟨_, hall, hd, hall', hr⟩
      exact ⟨hall d (by simp), hd, hall', hr⟩

theorem mem_insertCell {k : Nat} {v : Byte} {cs : List Host.Cell} {d : Host.Cell}
    (h : d ∈ insertCell k v cs) : d = (k, v) ∨ d ∈ cs := by
  induction cs with
  | nil => simpa [insertCell] using h
  | cons c cs ih =>
    unfold insertCell at h
    split at h
    · simpa using h
    · split at h
      · rcases List.mem_cons.1 h with h | h
        · exact .inl h
        · exact .inr (List.mem_cons_of_mem _ h)
      · rcases List.mem_cons.1 h with h | h
        · exact .inr (h ▸ List.mem_cons_self)
        · exact (ih h).imp id (List.mem_cons_of_mem _)

theorem cellsRising_insertCell {k : Nat} (v : Byte) {cs : List Host.Cell} (hk : k < Config.memSize)
    (h : cellsRising cs = true) : cellsRising (insertCell k v cs) = true := by
  induction cs with
  | nil => simpa [insertCell, cellsRising] using hk
  | cons c cs ih =>
    have ⟨hc, hall, hr⟩ := (cellsRising_cons c cs).1 h
    unfold insertCell
    split
    · rename_i hlt
      refine (cellsRising_cons _ _).2 ⟨hk, ?_, h⟩
      intro d hd
      rcases List.mem_cons.1 hd with rfl | hd
      · exact hlt
      · exact Nat.lt_trans hlt (hall d hd)
    · split
      · rename_i heq
        exact (cellsRising_cons _ _).2 ⟨hk, fun d hd => heq ▸ hall d hd, hr⟩
      · refine (cellsRising_cons _ _).2 ⟨hc, ?_, ih hr⟩
        intro d hd
        rcases mem_insertCell hd with rfl | hd
        · show c.1 < k
          omega
        · exact hall d hd

theorem cellsRising_eraseCell (k : Nat) {cs : List Host.Cell} (h : cellsRising cs = true) :
    cellsRising (eraseCell k cs) = true := by
  induction cs with
  | nil => rfl
  | cons c cs ih =>
    have ⟨hc, hall, hr⟩ := (cellsRising_cons c cs).1 h
    unfold eraseCell at ih ⊢
    by_cases hk : c.1 = k
    · simpa [hk] using ih hr
    · rw [List.filter_cons_of_pos (by simpa using hk)]
      exact (cellsRising_cons _ _).2 ⟨hc, fun d hd => hall d (List.mem_filter.1 hd).1, ih hr⟩

/-! ## Memory -/

/-- Read after write (R42): the written address gives the byte written, every other one what it gave. -/
theorem Memory.read_write (m : Memory) (a b : Nat) (v : Byte) :
    (m.write a v).read b = if a = b then v else m.read b := by
  unfold Memory.write
  split
  · rename_i hv
    by_cases h : a = b <;> simp [Memory.read, lookupCell_eraseCell, h, hv]
  · by_cases h : a = b <;> simp [Memory.read, lookupCell_insertCell, h]

/-- A write keeps the canonical form. -/
theorem Memory.write_wf {m : Memory} {a : Nat} (v : Byte) (ha : a < Config.memSize) (h : m.wf = true) :
    (m.write a v).wf = true := by
  simp only [Memory.wf, Bool.and_eq_true, List.all_eq_true, bne_iff_ne, ne_eq] at h ⊢
  unfold Memory.write
  split
  · refine ⟨cellsRising_eraseCell a h.1, fun c hc => h.2 c ?_⟩
    exact (List.mem_filter.1 hc).1
  · rename_i hv
    refine ⟨cellsRising_insertCell v ha h.1, fun c hc => ?_⟩
    rcases mem_insertCell hc with rfl | hc
    · exact hv
    · exact h.2 c hc

/-- Placing bytes keeps the canonical form. -/
theorem Memory.place_wf {m : Memory} (a : Addr) (bs : List Byte) (h : m.wf = true) :
    (m.place a bs).wf = true := by
  induction bs generalizing m a with
  | nil => exact h
  | cons b bs ih => exact ih _ (Memory.write_wf b a.isLt h)

/-- Every address of a memory made from bytes is at or above the first address. -/
theorem Memory.le_of_mem_ofBytes {a : Nat} {bs : List Byte} {c : Host.Cell}
    (h : c ∈ Memory.ofBytes a bs) : a ≤ c.1 := by
  induction bs generalizing a with
  | nil => simp [Memory.ofBytes] at h
  | cons b bs ih =>
    unfold Memory.ofBytes at h
    split at h
    · exact Nat.le_of_succ_le (ih h)
    · rcases List.mem_cons.1 h with rfl | h
      · exact Nat.le_refl a
      · exact Nat.le_of_succ_le (ih h)

/-- Memory made from bytes that fit is canonical. -/
theorem Memory.ofBytes_wf {a : Nat} {bs : List Byte} (h : a + bs.length ≤ Config.memSize) :
    (Memory.ofBytes a bs).wf = true := by
  induction bs generalizing a with
  | nil => rfl
  | cons b bs ih =>
    simp only [List.length_cons] at h
    have hr := ih (a := a + 1) (by omega)
    unfold Memory.ofBytes
    split
    · exact hr
    · rename_i hb
      simp only [Memory.wf, Bool.and_eq_true, List.all_eq_true, bne_iff_ne, ne_eq] at hr ⊢
      refine ⟨(cellsRising_cons _ _).2 ⟨?_, fun d hd => ?_, hr.1⟩, fun c hc => ?_⟩
      · show a < _
        omega
      · exact Memory.le_of_mem_ofBytes hd
      · rcases List.mem_cons.1 hc with rfl | hc
        · exact hb
        · exact hr.2 c hc

/-- A bulk-loaded memory is canonical (R57). -/
theorem Memory.ofImage_wf (img : Image) : (Memory.ofImage img).wf = true :=
  Memory.ofBytes_wf (by simp)

/-! ## The Change Map -/

/-- Insert-once (R42, R43). -/
theorem ChangeMap.lookup_record (cm : ChangeMap) (a b : Nat) (old : Byte) :
    lookupCell b (cm.record a old) =
      if a = b then some ((lookupCell b cm).getD old) else lookupCell b cm := by
  unfold ChangeMap.record
  by_cases h : a = b
  · subst h
    split
    · rename_i v hv
      simp [hv]
    · rename_i hv
      simp [hv, lookupCell_insertCell]
  · split
    · simp [h]
    · simp [h, lookupCell_insertCell]

/-- Recording keeps the canonical form. -/
theorem ChangeMap.record_wf {cm : ChangeMap} {a : Nat} (old : Byte) (ha : a < Config.memSize)
    (h : cm.wf = true) : (cm.record a old).wf = true := by
  unfold ChangeMap.record
  split
  · exact h
  · exact cellsRising_insertCell old ha h

end Sys2Proof.Machine
end

