-- ==== Sys2Proof/Laws/State.lean ====
section
/-! SUPPORT. One lemma per field per update of State, so that no later proof unfolds an update. -/

namespace Sys2Proof.Machine

variable (s : State) (r : Reg) (a v : Addr) (b : Byte) (n : Nat)

/-! ## setPc -/

@[simp] theorem State.setPc_r0 : (s.setPc v).r0 = s.r0 := rfl
@[simp] theorem State.setPc_r1 : (s.setPc v).r1 = s.r1 := rfl
@[simp] theorem State.setPc_r2 : (s.setPc v).r2 = s.r2 := rfl
@[simp] theorem State.setPc_pc : (s.setPc v).pc = v := rfl
@[simp] theorem State.setPc_sr : (s.setPc v).sr = s.sr := rfl
@[simp] theorem State.setPc_sp : (s.setPc v).sp = s.sp := rfl
@[simp] theorem State.setPc_mem : (s.setPc v).mem = s.mem := rfl
@[simp] theorem State.setPc_hc : (s.setPc v).hc = s.hc := rfl
@[simp] theorem State.setPc_cm : (s.setPc v).cm = s.cm := rfl
@[simp] theorem State.setPc_reg : (s.setPc v).reg r = s.reg r := by cases r <;> rfl
@[simp] theorem State.setPc_memRead : (s.setPc v).memRead a = s.memRead a := rfl

/-! ## setSp -/

@[simp] theorem State.setSp_r0 : (s.setSp b).r0 = s.r0 := rfl
@[simp] theorem State.setSp_r1 : (s.setSp b).r1 = s.r1 := rfl
@[simp] theorem State.setSp_r2 : (s.setSp b).r2 = s.r2 := rfl
@[simp] theorem State.setSp_pc : (s.setSp b).pc = s.pc := rfl
@[simp] theorem State.setSp_sr : (s.setSp b).sr = s.sr := rfl
@[simp] theorem State.setSp_sp : (s.setSp b).sp = b := rfl
@[simp] theorem State.setSp_mem : (s.setSp b).mem = s.mem := rfl
@[simp] theorem State.setSp_hc : (s.setSp b).hc = s.hc := rfl
@[simp] theorem State.setSp_cm : (s.setSp b).cm = s.cm := rfl
@[simp] theorem State.setSp_reg : (s.setSp b).reg r = s.reg r := by cases r <;> rfl
@[simp] theorem State.setSp_memRead : (s.setSp b).memRead a = s.memRead a := rfl

/-! ## setSr -/

@[simp] theorem State.setSr_r0 : (s.setSr b).r0 = s.r0 := rfl
@[simp] theorem State.setSr_r1 : (s.setSr b).r1 = s.r1 := rfl
@[simp] theorem State.setSr_r2 : (s.setSr b).r2 = s.r2 := rfl
@[simp] theorem State.setSr_pc : (s.setSr b).pc = s.pc := rfl
@[simp] theorem State.setSr_sr : (s.setSr b).sr = b := rfl
@[simp] theorem State.setSr_sp : (s.setSr b).sp = s.sp := rfl
@[simp] theorem State.setSr_mem : (s.setSr b).mem = s.mem := rfl
@[simp] theorem State.setSr_hc : (s.setSr b).hc = s.hc := rfl
@[simp] theorem State.setSr_cm : (s.setSr b).cm = s.cm := rfl
@[simp] theorem State.setSr_reg : (s.setSr b).reg r = s.reg r := by cases r <;> rfl
@[simp] theorem State.setSr_memRead : (s.setSr b).memRead a = s.memRead a := rfl

/-! ## setHc -/

@[simp] theorem State.setHc_r0 : (s.setHc n).r0 = s.r0 := rfl
@[simp] theorem State.setHc_r1 : (s.setHc n).r1 = s.r1 := rfl
@[simp] theorem State.setHc_r2 : (s.setHc n).r2 = s.r2 := rfl
@[simp] theorem State.setHc_pc : (s.setHc n).pc = s.pc := rfl
@[simp] theorem State.setHc_sr : (s.setHc n).sr = s.sr := rfl
@[simp] theorem State.setHc_sp : (s.setHc n).sp = s.sp := rfl
@[simp] theorem State.setHc_mem : (s.setHc n).mem = s.mem := rfl
@[simp] theorem State.setHc_hc : (s.setHc n).hc = n := rfl
@[simp] theorem State.setHc_cm : (s.setHc n).cm = s.cm := rfl
@[simp] theorem State.setHc_reg : (s.setHc n).reg r = s.reg r := by cases r <;> rfl
@[simp] theorem State.setHc_memRead : (s.setHc n).memRead a = s.memRead a := rfl

/-! ## setReg -/

@[simp] theorem State.setReg_pc : (s.setReg r b).pc = s.pc := by cases r <;> rfl
@[simp] theorem State.setReg_sr : (s.setReg r b).sr = s.sr := by cases r <;> rfl
@[simp] theorem State.setReg_sp : (s.setReg r b).sp = s.sp := by cases r <;> rfl
@[simp] theorem State.setReg_mem : (s.setReg r b).mem = s.mem := by cases r <;> rfl
@[simp] theorem State.setReg_hc : (s.setReg r b).hc = s.hc := by cases r <;> rfl
@[simp] theorem State.setReg_cm : (s.setReg r b).cm = s.cm := by cases r <;> rfl
@[simp] theorem State.setReg_memRead : (s.setReg r b).memRead a = s.memRead a := by cases r <;> rfl

/-- A register reads back what was written to it and no write touches another (R10). -/
theorem State.reg_setReg (q : Reg) : (s.setReg r b).reg q = if q = r then b else s.reg q := by
  cases r <;> cases q <;> rfl

@[simp] theorem State.reg_setReg_same : (s.setReg r b).reg r = b := by cases r <;> rfl

/-! ## memWrite -/

@[simp] theorem State.memWrite_r0 : (s.memWrite a b).r0 = s.r0 := rfl
@[simp] theorem State.memWrite_r1 : (s.memWrite a b).r1 = s.r1 := rfl
@[simp] theorem State.memWrite_r2 : (s.memWrite a b).r2 = s.r2 := rfl
@[simp] theorem State.memWrite_pc : (s.memWrite a b).pc = s.pc := rfl
@[simp] theorem State.memWrite_sr : (s.memWrite a b).sr = s.sr := rfl
@[simp] theorem State.memWrite_sp : (s.memWrite a b).sp = s.sp := rfl
@[simp] theorem State.memWrite_hc : (s.memWrite a b).hc = s.hc := rfl
@[simp] theorem State.memWrite_mem : (s.memWrite a b).mem = s.mem.write a.toNat b := rfl
@[simp] theorem State.memWrite_cm : (s.memWrite a b).cm = s.cm.record a.toNat (s.memRead a) := rfl
@[simp] theorem State.memWrite_reg : (s.memWrite a b).reg r = s.reg r := by cases r <;> rfl

/-! ## push -/

@[simp] theorem State.push_r0 : (s.push b).r0 = s.r0 := rfl
@[simp] theorem State.push_r1 : (s.push b).r1 = s.r1 := rfl
@[simp] theorem State.push_r2 : (s.push b).r2 = s.r2 := rfl
@[simp] theorem State.push_pc : (s.push b).pc = s.pc := rfl
@[simp] theorem State.push_sr : (s.push b).sr = s.sr := rfl
@[simp] theorem State.push_hc : (s.push b).hc = s.hc := rfl
@[simp] theorem State.push_sp : (s.push b).sp = s.sp - 1 := rfl
@[simp] theorem State.push_mem : (s.push b).mem = s.mem.write (stackAddr s.sp).toNat b := rfl
@[simp] theorem State.push_cm :
    (s.push b).cm = s.cm.record (stackAddr s.sp).toNat (s.memRead (stackAddr s.sp)) := rfl
@[simp] theorem State.push_reg : (s.push b).reg r = s.reg r := by cases r <;> rfl

/-! ## pop and fetch -/

@[simp] theorem State.pop_fst : s.pop.1 = s.memRead (stackAddr (s.sp + 1)) := rfl
@[simp] theorem State.pop_snd : s.pop.2 = s.setSp (s.sp + 1) := rfl
@[simp] theorem State.fetch_fst : s.fetch.1 = s.memRead s.pc := rfl
@[simp] theorem State.fetch_snd : s.fetch.2 = s.setPc (s.pc + 1) := rfl

end Sys2Proof.Machine
end

