-- ==== Sys2Proof/Laws/Ops.lean ====
section
/-! SUPPORT. One lemma per shared operation that says all it can do: memory write, push, trap entry, resolver, Reset, and
the shape of every meaning. -/

namespace Sys2Proof.Machine

/-! ## Memory write and push -/

theorem State.memRead_memWrite (s : State) (a b : Addr) (v : Byte) :
    (s.memWrite a v).memRead b = if a = b then v else s.memRead b := by
  simp only [State.memRead, State.memWrite, Memory.read_write, BitVec.toNat_inj]

theorem State.lookup_memWrite (s : State) (a b : Addr) (v : Byte) :
    lookupCell b.toNat (s.memWrite a v).cm =
      if a = b then some ((lookupCell b.toNat s.cm).getD (s.memRead a)) else lookupCell b.toNat s.cm := by
  simp only [State.memWrite_cm, ChangeMap.lookup_record, BitVec.toNat_inj]

/-- One write is tracked as one write (R42). -/
theorem State.tracks_memWrite (s : State) (a : Addr) (v : Byte) : TracksWrites [a] s (s.memWrite a v) := by
  intro b
  rw [State.lookup_memWrite]
  by_cases h : a = b
  · subst h; simp
  · simp [h, Ne.symm h]

theorem State.memRead_push (s : State) (b : Addr) (v : Byte) :
    (s.push v).memRead b = if stackAddr s.sp = b then v else s.memRead b :=
  State.memRead_memWrite s _ b v

theorem State.lookup_push (s : State) (b : Addr) (v : Byte) :
    lookupCell b.toNat (s.push v).cm =
      if stackAddr s.sp = b then some ((lookupCell b.toNat s.cm).getD (s.memRead (stackAddr s.sp)))
      else lookupCell b.toNat s.cm :=
  State.lookup_memWrite s _ b v

theorem State.memWrite_mem_wf {s : State} (a : Addr) (v : Byte) (h : s.mem.wf = true) :
    (s.memWrite a v).mem.wf = true :=
  Memory.write_wf v a.isLt h

theorem State.memWrite_cm_wf {s : State} (a : Addr) (v : Byte) (h : s.cm.wf = true) :
    (s.memWrite a v).cm.wf = true :=
  ChangeMap.record_wf _ a.isLt h

/-! ## The stack page -/

theorem stackAddr_toNat (sp : Byte) : (stackAddr sp).toNat = 256 + sp.toNat := by
  have := sp.isLt
  simp [stackAddr, Config.stackBase]
  omega

theorem stackAddr_inj {a b : Byte} : stackAddr a = stackAddr b ↔ a = b := by
  rw [← BitVec.toNat_inj, ← BitVec.toNat_inj, stackAddr_toNat, stackAddr_toNat]
  omega

/-! ## Trap entry (R110) -/

@[simp] theorem State.takeTrap_reg (s : State) (r : Reg) : s.takeTrap.reg r = s.reg r := by
  simp [State.takeTrap]

@[simp] theorem State.takeTrap_sp (s : State) : s.takeTrap.sp = s.sp - 3 := by
  simp only [State.takeTrap, State.setPc_sp, State.setSr_sp, State.push_sp]
  bv_omega

@[simp] theorem State.takeTrap_sr (s : State) : s.takeTrap.sr = setFlag .interrupt s.sr := by
  simp [State.takeTrap]

@[simp] theorem State.takeTrap_hc (s : State) : s.takeTrap.hc = s.hc := by
  simp [State.takeTrap]

/-- The three bytes of a frame are at three different addresses. -/
theorem stackAddr_frame (sp : Byte) :
    stackAddr sp ≠ stackAddr (sp - 1) ∧ stackAddr sp ≠ stackAddr (sp - 2) ∧
      stackAddr (sp - 1) ≠ stackAddr (sp - 2) := by
  simp only [ne_eq, stackAddr_inj]
  refine ⟨?_, ?_, ?_⟩ <;> bv_omega

/-- The state after the trap's three pushes. -/
def State.trapFrame (s : State) : State :=
  ((s.push ((s.pc + 1).extractLsb' 8 8)).push ((s.pc + 1).extractLsb' 0 8)).push s.sr

theorem State.takeTrap_mem (s : State) : s.takeTrap.mem = s.trapFrame.mem := rfl

theorem State.takeTrap_cm (s : State) : s.takeTrap.cm = s.trapFrame.cm := rfl

/-- Memory after trap entry: the three bytes of the frame, and every other byte as before. -/
theorem State.takeTrap_memRead (s : State) (a : Addr) :
    s.takeTrap.memRead a =
      if a = stackAddr s.sp then (s.pc + 1).extractLsb' 8 8
      else if a = stackAddr (s.sp - 1) then (s.pc + 1).extractLsb' 0 8
      else if a = stackAddr (s.sp - 2) then s.sr
      else s.memRead a := by
  have h2 : s.sp - 1 - 1 = s.sp - 2 := by bv_omega
  have ⟨f1, f2, f3⟩ := stackAddr_frame s.sp
  have hm : s.takeTrap.memRead a = s.trapFrame.memRead a := by
    rw [State.memRead, State.memRead, State.takeTrap_mem]
  rw [hm, State.trapFrame]
  simp only [State.memRead_push, State.push_sp, h2]
  generalize stackAddr s.sp = x at *
  generalize stackAddr (s.sp - 1) = y at *
  generalize stackAddr (s.sp - 2) = z at *
  by_cases e1 : a = x
  · subst e1; simp [f1.symm, f2.symm]
  · by_cases e2 : a = y
    · subst e2; simp [f1.symm, f3.symm]
    · by_cases e3 : a = z
      · subst e3; simp [f2.symm, f3.symm]
      · simp [e1, e2, e3, Ne.symm e1, Ne.symm e2, Ne.symm e3]

theorem stackAddr_ne_irq (sp : Byte) :
    Config.irqVecLow ≠ stackAddr sp ∧ Config.irqVecHigh ≠ stackAddr sp := by
  have := sp.isLt
  have hl : Config.irqVecLow.toNat = 65534 := rfl
  have hh : Config.irqVecHigh.toNat = 65535 := rfl
  simp only [ne_eq, ← BitVec.toNat_inj, stackAddr_toNat, hl, hh]
  omega

/-- The PC after trap entry is the interrupt vector, which the pushes cannot reach (R58, R110). -/
@[simp] theorem State.takeTrap_pc (s : State) :
    s.takeTrap.pc = s.readWord Config.irqVecLow Config.irqVecHigh := by
  have h : s.takeTrap.pc = s.takeTrap.readWord Config.irqVecLow Config.irqVecHigh := by
    simp [State.takeTrap, State.readWord]
  rw [h]
  simp only [State.readWord, State.takeTrap_memRead, stackAddr_ne_irq, if_false]

theorem State.takeTrap_tracks (s : State) :
    TracksWrites [stackAddr s.sp, stackAddr (s.sp - 1), stackAddr (s.sp - 2)] s s.takeTrap := by
  intro a
  have h2 : s.sp - 1 - 1 = s.sp - 2 := by bv_omega
  have ⟨f1, f2, f3⟩ := stackAddr_frame s.sp
  rw [State.takeTrap_cm, State.trapFrame]
  simp only [State.lookup_push, State.memRead_push, State.push_sp, h2, List.mem_cons, List.not_mem_nil, or_false]
  generalize stackAddr s.sp = x at *
  generalize stackAddr (s.sp - 1) = y at *
  generalize stackAddr (s.sp - 2) = z at *
  by_cases e1 : a = x
  · subst e1; simp [f1, f2, f1.symm, f2.symm]
  · by_cases e2 : a = y
    · subst e2; simp [f1, f1.symm, f3.symm]
    · by_cases e3 : a = z
      · subst e3; simp [f2, f3, f2.symm, f3.symm]
      · simp [e1, e2, e3, Ne.symm e1, Ne.symm e2, Ne.symm e3]

theorem State.takeTrap_mem_wf {s : State} (h : s.mem.wf = true) : s.takeTrap.mem.wf = true :=
  Memory.write_wf _ (stackAddr _).isLt (Memory.write_wf _ (stackAddr _).isLt (Memory.write_wf _ (stackAddr _).isLt h))

theorem State.takeTrap_cm_wf {s : State} (h : s.cm.wf = true) : s.takeTrap.cm.wf = true :=
  ChangeMap.record_wf _ (stackAddr _).isLt
    (ChangeMap.record_wf _ (stackAddr _).isLt (ChangeMap.record_wf _ (stackAddr _).isLt h))

/-! ## The resolver (R103 to R105) -/

/-- The resolver changes the PC and the highlight counter and nothing else. -/
theorem afterResolve_eq (p : Params) (m : Mode) (s : State) :
    afterResolve p m s = (s.setPc (s.pc + BitVec.ofNat 16 (operandBytes m))).setHc (operandBytes m) := by
  cases m <;> simp [afterResolve, resolve, operandBytes, State.setPc, State.setHc]

/-- The concatenation of two bytes is the sum R103 writes. -/
theorem append_eq_shift_add (hi lo : Byte) : (hi.setWidth 16 <<< 8) + lo.setWidth 16 = hi ++ lo := by
  have h1 := hi.isLt
  have h2 := lo.isLt
  apply BitVec.eq_of_toNat_eq
  simp only [BitVec.toNat_add, BitVec.toNat_shiftLeft, BitVec.toNat_setWidth, BitVec.toNat_append,
    Nat.shiftLeft_eq]
  rw [Nat.mod_eq_of_lt (by omega : hi.toNat < 2 ^ 16), Nat.mod_eq_of_lt (by omega : lo.toNat < 2 ^ 16),
    Nat.mod_eq_of_lt (by omega : hi.toNat * 2 ^ 8 < 2 ^ 16), Nat.mod_eq_of_lt (by omega), Nat.mul_comm,
    Nat.two_pow_add_eq_or_of_lt h2]

@[simp] theorem operandAddress_absolute (s : State) :
    operandAddress params .absolute s = s.readWord s.pc (s.pc + 1) := by
  simp [operandAddress, resolve, params, State.readWord, append_eq_shift_add]

@[simp] theorem operandAddress_immediate (p : Params) (s : State) : operandAddress p .immediate s = s.pc := rfl

@[simp] theorem operandAddress_implied (p : Params) (s : State) : operandAddress p .implied s = 0 := rfl

/-! ## The shape of a meaning -/

/-- Every meaning runs its form: the resolver, then the handler of its mnemonic (R101, R106). -/
theorem exec_eq (i : Instr) (s : State) :
    exec i s = .next (runForm params i.mode (handlerOf params i.op i.reg) s) := by
  cases i <;> rfl

/-- What the handler of every mnemonic starts from and reads, with the resolver's work written out. -/
theorem runForm_eq (p : Params) (m : Mode) (h : Addr → State → State) (s : State) :
    runForm p m h s =
      h (operandAddress p m s) ((s.setPc (s.pc + BitVec.ofNat 16 (operandBytes m))).setHc (operandBytes m)) := by
  rw [runForm, afterResolve_eq]

/-- Every instruction completes (R170). -/
theorem exec_completes (i : Instr) (s : State) : ∃ t, exec i s = .next t := ⟨_, exec_eq i s⟩

theorem step_completes (s : State) : ∃ t, step s = .next t := exec_completes _ _

/-- A run of the core is its first step and the rest. -/
theorem core_run_succ {n : Nat} {s t : State} (h : step s = .next t) :
    Host.Core.run Sys2Proof.core (n + 1) s = Host.Core.run Sys2Proof.core n t := by
  simp only [Host.Core.run, show Sys2Proof.core.step s = .next t from h]

/-! ## Reset (R190, R195) -/

theorem State.hostReset_eq (s : State) :
    s.hostReset = { s with r0 := 0, r1 := 0, r2 := 0, sr := 0, sp := 0xFD, pc := s.readWord 0xFFFC 0xFFFD } := rfl

end Sys2Proof.Machine
end

