-- ==== Sys2Proof/Laws/PerInstr.lean ====
section
/-! SUPPORT. Facts stated per instruction, one lemma per constructor of `Instr`. -/

namespace Sys2Proof.Laws

/-- The length of a well-formed assembly line is 1 plus the operand bytes of its mode (R79). -/
def EncodedLength.Statement (i : Instr) : Prop :=
  ∀ o : Operand, Asm.wf ⟨i, o⟩ = true → (assemble ⟨i, o⟩).length = 1 + operandBytes i.mode

/-- The table entry of a well-formed instruction's raw byte is the formula of R71 on the fields it executes with (R76; R78
for ILLEGAL, whose entry is the all-zero one). -/
def EncodedFields.Statement (i : Instr) : Prop :=
  i.wf = true → itabDefault (encode i) = combinedByte (opBits i.op) (modeBits i.mode) (regBits i.reg)

theorem length_encodeOperand (m : Mode) (o : Operand) (h : Operand.fits m o = true) :
    (encodeOperand o).length = operandBytes m := by
  cases m <;> cases o <;> first | rfl | simp [Operand.fits] at h

theorem length_assemble (i : Instr) : EncodedLength.Statement i := by
  intro o h
  rw [Asm.wf, Bool.and_eq_true] at h
  rw [assemble, List.length_cons, length_encodeOperand _ o h.2, Nat.add_comm]

theorem itabDefault_combinedByte (op : Op) (m : Mode) (r : Reg) :
    itabDefault (combinedByte (opBits op) (modeBits m) (regBits r)) =
      combinedByte (opBits op) (modeBits m) (regBits r) := by
  cases op <;> cases m <;> cases r <;> rfl

/-- The two readings of legality agree: R78's list of illegal bytes, and R76's ranges. -/
theorem illegalByte_eq_not_fieldsInRange (b : Byte) : illegalByte b = !fieldsInRange b := by
  revert b; decide

theorem itabDefault_illegal (raw : Byte) (h : illegalByte raw = true) : itabDefault raw = 0x00 := by
  rw [illegalByte_eq_not_fieldsInRange, Bool.not_eq_true'] at h
  simp [itabDefault, h]

/-! ## EncodedLength -/

theorem EncodedLength.brkAbs (r : Reg) : EncodedLength.Statement (.brkAbs r) := length_assemble _
theorem EncodedLength.ldAbs (r : Reg) : EncodedLength.Statement (.ldAbs r) := length_assemble _
theorem EncodedLength.stAbs (r : Reg) : EncodedLength.Statement (.stAbs r) := length_assemble _
theorem EncodedLength.addAbs (r : Reg) : EncodedLength.Statement (.addAbs r) := length_assemble _
theorem EncodedLength.jmpAbs (r : Reg) : EncodedLength.Statement (.jmpAbs r) := length_assemble _
theorem EncodedLength.jpcAbs (r : Reg) : EncodedLength.Statement (.jpcAbs r) := length_assemble _
theorem EncodedLength.jpzAbs (r : Reg) : EncodedLength.Statement (.jpzAbs r) := length_assemble _
theorem EncodedLength.jpnAbs (r : Reg) : EncodedLength.Statement (.jpnAbs r) := length_assemble _
theorem EncodedLength.phAbs (r : Reg) : EncodedLength.Statement (.phAbs r) := length_assemble _
theorem EncodedLength.plAbs (r : Reg) : EncodedLength.Statement (.plAbs r) := length_assemble _
theorem EncodedLength.andAbs (r : Reg) : EncodedLength.Statement (.andAbs r) := length_assemble _
theorem EncodedLength.xorAbs (r : Reg) : EncodedLength.Statement (.xorAbs r) := length_assemble _
theorem EncodedLength.clcAbs (r : Reg) : EncodedLength.Statement (.clcAbs r) := length_assemble _
theorem EncodedLength.illegal (raw : Byte) : EncodedLength.Statement (.illegal raw) := length_assemble _
theorem EncodedLength.brkImm (r : Reg) : EncodedLength.Statement (.brkImm r) := length_assemble _
theorem EncodedLength.ldImm (r : Reg) : EncodedLength.Statement (.ldImm r) := length_assemble _
theorem EncodedLength.stImm (r : Reg) : EncodedLength.Statement (.stImm r) := length_assemble _
theorem EncodedLength.addImm (r : Reg) : EncodedLength.Statement (.addImm r) := length_assemble _
theorem EncodedLength.jmpImm (r : Reg) : EncodedLength.Statement (.jmpImm r) := length_assemble _
theorem EncodedLength.jpcImm (r : Reg) : EncodedLength.Statement (.jpcImm r) := length_assemble _
theorem EncodedLength.jpzImm (r : Reg) : EncodedLength.Statement (.jpzImm r) := length_assemble _
theorem EncodedLength.jpnImm (r : Reg) : EncodedLength.Statement (.jpnImm r) := length_assemble _
theorem EncodedLength.phImm (r : Reg) : EncodedLength.Statement (.phImm r) := length_assemble _
theorem EncodedLength.plImm (r : Reg) : EncodedLength.Statement (.plImm r) := length_assemble _
theorem EncodedLength.andImm (r : Reg) : EncodedLength.Statement (.andImm r) := length_assemble _
theorem EncodedLength.xorImm (r : Reg) : EncodedLength.Statement (.xorImm r) := length_assemble _
theorem EncodedLength.clcImm (r : Reg) : EncodedLength.Statement (.clcImm r) := length_assemble _
theorem EncodedLength.brkImp (r : Reg) : EncodedLength.Statement (.brkImp r) := length_assemble _
theorem EncodedLength.ldImp (r : Reg) : EncodedLength.Statement (.ldImp r) := length_assemble _
theorem EncodedLength.stImp (r : Reg) : EncodedLength.Statement (.stImp r) := length_assemble _
theorem EncodedLength.addImp (r : Reg) : EncodedLength.Statement (.addImp r) := length_assemble _
theorem EncodedLength.jmpImp (r : Reg) : EncodedLength.Statement (.jmpImp r) := length_assemble _
theorem EncodedLength.jpcImp (r : Reg) : EncodedLength.Statement (.jpcImp r) := length_assemble _
theorem EncodedLength.jpzImp (r : Reg) : EncodedLength.Statement (.jpzImp r) := length_assemble _
theorem EncodedLength.jpnImp (r : Reg) : EncodedLength.Statement (.jpnImp r) := length_assemble _
theorem EncodedLength.phImp (r : Reg) : EncodedLength.Statement (.phImp r) := length_assemble _
theorem EncodedLength.plImp (r : Reg) : EncodedLength.Statement (.plImp r) := length_assemble _
theorem EncodedLength.andImp (r : Reg) : EncodedLength.Statement (.andImp r) := length_assemble _
theorem EncodedLength.xorImp (r : Reg) : EncodedLength.Statement (.xorImp r) := length_assemble _
theorem EncodedLength.clcImp (r : Reg) : EncodedLength.Statement (.clcImp r) := length_assemble _

/-! ## EncodedFields -/

theorem EncodedFields.brkAbs (r : Reg) : EncodedFields.Statement (.brkAbs r) := fun _ => itabDefault_combinedByte _ _ _
theorem EncodedFields.ldAbs (r : Reg) : EncodedFields.Statement (.ldAbs r) := fun _ => itabDefault_combinedByte _ _ _
theorem EncodedFields.stAbs (r : Reg) : EncodedFields.Statement (.stAbs r) := fun _ => itabDefault_combinedByte _ _ _
theorem EncodedFields.addAbs (r : Reg) : EncodedFields.Statement (.addAbs r) := fun _ => itabDefault_combinedByte _ _ _
theorem EncodedFields.jmpAbs (r : Reg) : EncodedFields.Statement (.jmpAbs r) := fun _ => itabDefault_combinedByte _ _ _
theorem EncodedFields.jpcAbs (r : Reg) : EncodedFields.Statement (.jpcAbs r) := fun _ => itabDefault_combinedByte _ _ _
theorem EncodedFields.jpzAbs (r : Reg) : EncodedFields.Statement (.jpzAbs r) := fun _ => itabDefault_combinedByte _ _ _
theorem EncodedFields.jpnAbs (r : Reg) : EncodedFields.Statement (.jpnAbs r) := fun _ => itabDefault_combinedByte _ _ _
theorem EncodedFields.phAbs (r : Reg) : EncodedFields.Statement (.phAbs r) := fun _ => itabDefault_combinedByte _ _ _
theorem EncodedFields.plAbs (r : Reg) : EncodedFields.Statement (.plAbs r) := fun _ => itabDefault_combinedByte _ _ _
theorem EncodedFields.andAbs (r : Reg) : EncodedFields.Statement (.andAbs r) := fun _ => itabDefault_combinedByte _ _ _
theorem EncodedFields.xorAbs (r : Reg) : EncodedFields.Statement (.xorAbs r) := fun _ => itabDefault_combinedByte _ _ _
theorem EncodedFields.clcAbs (r : Reg) : EncodedFields.Statement (.clcAbs r) := fun _ => itabDefault_combinedByte _ _ _
theorem EncodedFields.illegal (raw : Byte) : EncodedFields.Statement (.illegal raw) := fun h => (itabDefault_illegal raw h).trans (show 0x00 = combinedByte 0 0 0 by decide)
theorem EncodedFields.brkImm (r : Reg) : EncodedFields.Statement (.brkImm r) := fun _ => itabDefault_combinedByte _ _ _
theorem EncodedFields.ldImm (r : Reg) : EncodedFields.Statement (.ldImm r) := fun _ => itabDefault_combinedByte _ _ _
theorem EncodedFields.stImm (r : Reg) : EncodedFields.Statement (.stImm r) := fun _ => itabDefault_combinedByte _ _ _
theorem EncodedFields.addImm (r : Reg) : EncodedFields.Statement (.addImm r) := fun _ => itabDefault_combinedByte _ _ _
theorem EncodedFields.jmpImm (r : Reg) : EncodedFields.Statement (.jmpImm r) := fun _ => itabDefault_combinedByte _ _ _
theorem EncodedFields.jpcImm (r : Reg) : EncodedFields.Statement (.jpcImm r) := fun _ => itabDefault_combinedByte _ _ _
theorem EncodedFields.jpzImm (r : Reg) : EncodedFields.Statement (.jpzImm r) := fun _ => itabDefault_combinedByte _ _ _
theorem EncodedFields.jpnImm (r : Reg) : EncodedFields.Statement (.jpnImm r) := fun _ => itabDefault_combinedByte _ _ _
theorem EncodedFields.phImm (r : Reg) : EncodedFields.Statement (.phImm r) := fun _ => itabDefault_combinedByte _ _ _
theorem EncodedFields.plImm (r : Reg) : EncodedFields.Statement (.plImm r) := fun _ => itabDefault_combinedByte _ _ _
theorem EncodedFields.andImm (r : Reg) : EncodedFields.Statement (.andImm r) := fun _ => itabDefault_combinedByte _ _ _
theorem EncodedFields.xorImm (r : Reg) : EncodedFields.Statement (.xorImm r) := fun _ => itabDefault_combinedByte _ _ _
theorem EncodedFields.clcImm (r : Reg) : EncodedFields.Statement (.clcImm r) := fun _ => itabDefault_combinedByte _ _ _
theorem EncodedFields.brkImp (r : Reg) : EncodedFields.Statement (.brkImp r) := fun _ => itabDefault_combinedByte _ _ _
theorem EncodedFields.ldImp (r : Reg) : EncodedFields.Statement (.ldImp r) := fun _ => itabDefault_combinedByte _ _ _
theorem EncodedFields.stImp (r : Reg) : EncodedFields.Statement (.stImp r) := fun _ => itabDefault_combinedByte _ _ _
theorem EncodedFields.addImp (r : Reg) : EncodedFields.Statement (.addImp r) := fun _ => itabDefault_combinedByte _ _ _
theorem EncodedFields.jmpImp (r : Reg) : EncodedFields.Statement (.jmpImp r) := fun _ => itabDefault_combinedByte _ _ _
theorem EncodedFields.jpcImp (r : Reg) : EncodedFields.Statement (.jpcImp r) := fun _ => itabDefault_combinedByte _ _ _
theorem EncodedFields.jpzImp (r : Reg) : EncodedFields.Statement (.jpzImp r) := fun _ => itabDefault_combinedByte _ _ _
theorem EncodedFields.jpnImp (r : Reg) : EncodedFields.Statement (.jpnImp r) := fun _ => itabDefault_combinedByte _ _ _
theorem EncodedFields.phImp (r : Reg) : EncodedFields.Statement (.phImp r) := fun _ => itabDefault_combinedByte _ _ _
theorem EncodedFields.plImp (r : Reg) : EncodedFields.Statement (.plImp r) := fun _ => itabDefault_combinedByte _ _ _
theorem EncodedFields.andImp (r : Reg) : EncodedFields.Statement (.andImp r) := fun _ => itabDefault_combinedByte _ _ _
theorem EncodedFields.xorImp (r : Reg) : EncodedFields.Statement (.xorImp r) := fun _ => itabDefault_combinedByte _ _ _
theorem EncodedFields.clcImp (r : Reg) : EncodedFields.Statement (.clcImp r) := fun _ => itabDefault_combinedByte _ _ _

end Sys2Proof.Laws
end

