-- ==== Sys2Proof/Tests/Slice0.lean ====
section
/-! SUPPORT. The model's own tests: the well-formedness smoke test, the decoding of a written word for every constructor,
single steps from 95_test_vectors.md (each theorem names its vector), and for every statement with hypotheses a concrete
case that meets them. -/

namespace Sys2Proof.Tests

open Sys2Proof.Machine

/-- A state after Reset with bytes placed from an address upward and the PC there. -/
def stateAt (a : Addr) (bs : List Byte) : State := { State.reset with pc := a, mem := Memory.place [] a bs }

/-- A state with further bytes placed. -/
def withBytes (a : Addr) (bs : List Byte) (s : State) : State := { s with mem := s.mem.place a bs }

/-- The next state, where there is one. -/
def after (o : Host.Outcome State Fault Refusal) : Option State :=
  match o with
  | .next s => some s
  | .fault _ => none
  | .refused _ => none

/-- Registers, SR, SP, PC and highlight counter. -/
def regsOf (s : State) : List Byte × Byte × Byte × Addr × Nat := ([s.r0, s.r1, s.r2], s.sr, s.sp, s.pc, s.hc)

/-- The registers and flags a step leaves. -/
def stepRegs (s : State) : Option (List Byte × Byte × Byte × Addr × Nat) := (after (step s)).map regsOf

/-- The bytes at some addresses and the Change Map a step leaves. -/
def stepMem (s : State) (as : List Addr) : Option (List Byte × ChangeMap) :=
  (after (step s)).map fun t => (as.map t.memRead, t.cm)

/-- The non-default parameter values of the vectors LD8, LD9, JPC9 and JPC10. -/
def paramsNever : Params := { params with negMode := .never }

/-! ## Well-formedness -/

/-- R78: 0x41 is LD.imm R0. -/
theorem test_wf_refuses_legal_byte_as_illegal :
    Instr.wf (.illegal 0x41) = false := by decide

theorem test_wf_accepts_illegal_byte :
    Instr.wf (.illegal 0x0D) = true := by decide

/-- R82: an Immediate instruction takes an 8-bit value. -/
theorem test_wf_refuses_wrong_operand :
    Asm.wf ⟨.ldImm .r0, .address 0x1234⟩ = false := by decide

theorem test_wf_refuses_missing_operand :
    Asm.wf ⟨.jmpAbs .r0, .nothing⟩ = false := by decide

theorem test_wf_refuses_extra_operand :
    Asm.wf ⟨.clcImp .r0, .value 0x01⟩ = false := by decide

theorem test_wf_refuses_illegal_in_line :
    Asm.wf ⟨.illegal 0x00, .address 0x0000⟩ = false := by decide

/-! ## Decoding: words written from R71 to R74, bit by bit -/

theorem test_decode_absolute_words :
    [0b00000000, 0b00010001, 0b00100010, 0b00000011, 0b00010100, 0b00100101, 0b00000110, 0b00010111,
      0b00101000, 0b00001001, 0b00011010, 0b00101011, 0b00001100].map decode =
      [.brkAbs .r0, .ldAbs .r1, .stAbs .r2, .addAbs .r0, .jmpAbs .r1, .jpcAbs .r2, .jpzAbs .r0,
        .jpnAbs .r1, .phAbs .r2, .plAbs .r0, .andAbs .r1, .xorAbs .r2, .clcAbs .r0] := by decide

theorem test_decode_immediate_words :
    [0b01010000, 0b01100001, 0b01000010, 0b01010011, 0b01100100, 0b01000101, 0b01010110, 0b01100111,
      0b01001000, 0b01011001, 0b01101010, 0b01001011, 0b01011100].map decode =
      [.brkImm .r1, .ldImm .r2, .stImm .r0, .addImm .r1, .jmpImm .r2, .jpcImm .r0, .jpzImm .r1,
        .jpnImm .r2, .phImm .r0, .plImm .r1, .andImm .r2, .xorImm .r0, .clcImm .r1] := by decide

theorem test_decode_implied_words :
    [0b10100000, 0b10000001, 0b10010010, 0b10100011, 0b10000100, 0b10010101, 0b10100110, 0b10000111,
      0b10011000, 0b10101001, 0b10001010, 0b10011011, 0b10101100].map decode =
      [.brkImp .r2, .ldImp .r0, .stImp .r1, .addImp .r2, .jmpImp .r0, .jpcImp .r1, .jpzImp .r2,
        .jpnImp .r0, .phImp .r1, .plImp .r2, .andImp .r0, .xorImp .r1, .clcImp .r2] := by decide

/-- The illegal rows of the decoder table of 95, section 2. -/
theorem test_decode_illegal_words :
    [0x0D, 0x4F, 0x31, 0x7C, 0xB0, 0xC1, 0xFF].map decode =
      [.illegal 0x0D, .illegal 0x4F, .illegal 0x31, .illegal 0x7C, .illegal 0xB0, .illegal 0xC1, .illegal 0xFF] := by decide

/-- The examples of R82. -/
theorem test_assemble_examples :
    [assemble ⟨.ldImm .r0, .value 0x05⟩, assemble ⟨.stAbs .r1, .address 0x1234⟩, assemble ⟨.clcImp .r0, .nothing⟩,
      assemble ⟨.phImp .r2, .nothing⟩] = [[0x41, 0x05], [0x12, 0x34, 0x12], [0x8C], [0xA8]] := by decide

theorem test_disassemble_absolute :
    disassemble [0x12, 0x34, 0x12, 0xFF] = .ok (⟨.stAbs .r1, .address 0x1234⟩, [0xFF]) := rfl

theorem test_disassemble_truncated :
    disassemble [0x12, 0x34] = .error .truncated := rfl

theorem test_table_word :
    decodeTableWord 8 0x63 = some (.addImm .r2) := by decide

/-! ## Resolver (95, section 2) -/

/-- A = 0xFFFE: operand bytes at 0xFFFF and 0x0000. -/
theorem test_resolve_absolute_wraps :
    (resolve params .absolute (withBytes 0x0000 [0xAB] (withBytes 0xFFFF [0xCD] (stateAt 0xFFFF [])))).1 = 0xABCD := by decide

/-- `ABS_WIDTH = 8`. -/
theorem test_resolve_absolute_narrow :
    (resolve { params with absWidth := .low } .absolute (stateAt 0x0201 [0x34, 0x12])).1 = 0x0034 := by decide

/-- A = 0xFFFE. -/
theorem test_resolve_immediate_wraps :
    (resolve params .immediate (stateAt 0xFFFF [])).1 = 0xFFFF ∧ (resolve params .immediate (stateAt 0xFFFF [])).2.pc = 0x0000 := by decide

/-! ## Single steps (95, section 3) -/

/-- Vector LD2. -/
theorem test_ldImm_clears_negative :
    stepRegs { stateAt 0x0200 [0x41, 0x00] with r0 := 0x09, sr := 0x81 } =
      some ([0x00, 0x00, 0x00], 0x03, 0xFD, 0x0202, 1) := by decide

/-- Vector LD3. -/
theorem test_ldImm_sets_negative :
    stepRegs (stateAt 0x0200 [0x51, 0x80]) =
      some ([0x00, 0x80, 0x00], 0x80, 0xFD, 0x0202, 1) := by decide

/-- Vector LD6. -/
theorem test_ldAbs :
    stepRegs (withBytes 0x1234 [0xA5] (stateAt 0x0200 [0x11, 0x34, 0x12])) =
      some ([0x00, 0xA5, 0x00], 0x80, 0xFD, 0x0203, 2) := by decide

/-- Vector LD7. -/
theorem test_ldImp :
    stepRegs (withBytes 0x0000 [0x3C] (stateAt 0x0200 [0xA1])) =
      some ([0x00, 0x00, 0x3C], 0x00, 0xFD, 0x0201, 0) := by decide

/-- Vector LD10. -/
theorem test_ldAbs_operand_wraps :
    stepRegs (stateAt 0xFFFF [0x01, 0x02, 0x00]) =
      some ([0x00, 0x00, 0x00], 0x02, 0xFD, 0x0002, 2) := by decide

/-- Vector ST1. -/
theorem test_stAbs :
    stepMem { stateAt 0x0200 [0x12, 0x34, 0x12] with r1 := 0xAB } [0x1234] = some ([0xAB], [(0x1234, 0x00)]) := by decide

/-- Vector ST2. -/
theorem test_stImm :
    stepMem { stateAt 0x0200 [0x42, 0x99] with r0 := 0x77 } [0x0201] = some ([0x77], [(0x0201, 0x99)]) := by decide

/-- Vector ST3. -/
theorem test_stImp :
    stepMem { withBytes 0x0000 [0xEE] (stateAt 0x0200 [0xA2]) with r2 := 0x5A } [0x0000] = some ([0x5A], [(0x0000, 0xEE)]) := by decide

/-- Vector ADD2. -/
theorem test_addImm_carry_in :
    stepRegs { stateAt 0x0200 [0x43, 0xFF] with r0 := 0xFF, sr := 0x01 } =
      some ([0xFF, 0x00, 0x00], 0x01, 0xFD, 0x0202, 1) := by decide

/-- Vector ADD11. -/
theorem test_addImm_keeps_negative_overflow :
    stepRegs { stateAt 0x0200 [0x43, 0x80] with r0 := 0x80, sr := 0xC4 } =
      some ([0x00, 0x00, 0x00], 0xC7, 0xFD, 0x0202, 1) := by decide

/-- Vector ADD8. -/
theorem test_addAbs :
    stepRegs { withBytes 0x3000 [0x0A] (stateAt 0x0200 [0x23, 0x00, 0x30]) with r2 := 0x05 } =
      some ([0x00, 0x00, 0x0F], 0x00, 0xFD, 0x0203, 2) := by decide

/-- Vector ADD10. -/
theorem test_addImp :
    stepRegs { withBytes 0x0000 [0x02] (stateAt 0x0200 [0x83]) with r0 := 0x01 } =
      some ([0x03, 0x00, 0x00], 0x00, 0xFD, 0x0201, 0) := by decide

/-- Vector JMP5. -/
theorem test_jmpAbs :
    stepRegs { stateAt 0x0200 [0x24, 0xFF, 0xFF] with sr := 0x83 } =
      some ([0x00, 0x00, 0x00], 0x83, 0xFD, 0xFFFF, 2) := by decide

/-- Vector JMP2. -/
theorem test_jmpImm :
    stepRegs (stateAt 0x0200 [0x44, 0x8C]) =
      some ([0x00, 0x00, 0x00], 0x00, 0xFD, 0x0201, 1) := by decide

/-- Vector JMP3. -/
theorem test_jmpImp :
    stepRegs (stateAt 0x0200 [0x84]) =
      some ([0x00, 0x00, 0x00], 0x00, 0xFD, 0x0000, 0) := by decide

/-- Vector JPC5. -/
theorem test_jpcImm_wraps :
    stepRegs { stateAt 0xFFEE [0x45, 0x20] with sr := 0x01 } =
      some ([0x00, 0x00, 0x00], 0x01, 0xFD, 0x0010, 1) := by decide

/-- Vector JPC3. -/
theorem test_jpcImm_not_taken :
    stepRegs { stateAt 0x0200 [0x45, 0x10] with sr := 0x82 } =
      some ([0x00, 0x00, 0x00], 0x82, 0xFD, 0x0202, 1) := by decide

/-- Vector JPC6. -/
theorem test_jpcAbs :
    stepRegs { withBytes 0x3000 [0x7F] (stateAt 0x0200 [0x05, 0x00, 0x30]) with sr := 0x01 } =
      some ([0x00, 0x00, 0x00], 0x01, 0xFD, 0x0282, 2) := by decide

/-- Vector JPC7. -/
theorem test_jpcImp :
    stepRegs { withBytes 0x0000 [0x04] (stateAt 0x0200 [0x85]) with sr := 0x01 } =
      some ([0x00, 0x00, 0x00], 0x01, 0xFD, 0x0205, 0) := by decide

/-- Vector JPZ1. -/
theorem test_jpzImm :
    stepRegs { stateAt 0x0205 [0x46, 0x03] with sr := 0x02 } =
      some ([0x00, 0x00, 0x00], 0x02, 0xFD, 0x020A, 1) := by decide

/-- Vector JPZ2. -/
theorem test_jpzImm_not_taken :
    stepRegs { stateAt 0x0205 [0x46, 0x03] with sr := 0x81 } =
      some ([0x00, 0x00, 0x00], 0x81, 0xFD, 0x0207, 1) := by decide

/-- Vector JPN1. -/
theorem test_jpnImm :
    stepRegs { stateAt 0x0300 [0x47, 0xFF] with sr := 0x80 } =
      some ([0x00, 0x00, 0x00], 0x80, 0xFD, 0x0401, 1) := by decide

/-- Vector JPN2. -/
theorem test_jpnImm_not_taken :
    stepRegs { stateAt 0x0300 [0x47, 0xFF] with sr := 0x03 } =
      some ([0x00, 0x00, 0x00], 0x03, 0xFD, 0x0302, 1) := by decide

/-- Vector PH2. -/
theorem test_phImp_wraps :
    stepRegs { stateAt 0x0200 [0x88] with r0 := 0x11, sp := 0x00 } =
      some ([0x11, 0x00, 0x00], 0x00, 0xFF, 0x0201, 0) := by decide

/-- Vector PH3. -/
theorem test_phImm :
    stepMem { stateAt 0x0200 [0x48, 0x77] with r0 := 0x11 } [0x01FD] = some ([0x11], [(0x01FD, 0x00)]) := by decide

/-- Vector PH4. -/
theorem test_phAbs :
    stepRegs { stateAt 0x0200 [0x28, 0x77, 0x66] with r2 := 0x22, sr := 0xFF } =
      some ([0x00, 0x00, 0x22], 0xFF, 0xFC, 0x0203, 2) := by decide

/-- Vector PL2. -/
theorem test_plImp_wraps :
    stepRegs { stateAt 0x0200 [0x89] with r0 := 0x05, sr := 0x80, sp := 0xFF } =
      some ([0x00, 0x00, 0x00], 0x02, 0x00, 0x0201, 0) := by decide

/-- Vector PL3. -/
theorem test_plImp_clears_zero :
    stepRegs { withBytes 0x01FE [0x7F] (stateAt 0x0200 [0x99]) with sr := 0x03 } =
      some ([0x00, 0x7F, 0x00], 0x01, 0xFE, 0x0201, 0) := by decide

/-- Vector PL4. -/
theorem test_plAbs :
    stepRegs { withBytes 0x0111 [0xFF] (stateAt 0x0200 [0x09, 0x00, 0x00]) with sp := 0x10 } =
      some ([0xFF, 0x00, 0x00], 0x80, 0x11, 0x0203, 2) := by decide

/-- Vector AND2. -/
theorem test_andImm :
    stepRegs { stateAt 0x0200 [0x4A, 0x00] with r0 := 0xF0, sr := 0x81 } =
      some ([0x00, 0x00, 0x00], 0x03, 0xFD, 0x0202, 1) := by decide

/-- Vector AND4. -/
theorem test_andAbs :
    stepRegs { withBytes 0x3000 [0xF0] (stateAt 0x0200 [0x2A, 0x00, 0x30]) with r2 := 0x0F } =
      some ([0x00, 0x00, 0x00], 0x02, 0xFD, 0x0203, 2) := by decide

/-- Vector AND5. -/
theorem test_andImp :
    stepRegs { withBytes 0x0000 [0x81] (stateAt 0x0200 [0x8A]) with r0 := 0xFF } =
      some ([0x81, 0x00, 0x00], 0x80, 0xFD, 0x0201, 0) := by decide

/-- Vector XOR1. -/
theorem test_xorImm :
    stepRegs { stateAt 0x0200 [0x6B, 0x80] with r2 := 0x80, sr := 0x80 } =
      some ([0x00, 0x00, 0x00], 0x02, 0xFD, 0x0202, 1) := by decide

/-- Vector XOR4. -/
theorem test_xorAbs :
    stepRegs { withBytes 0x1234 [0xAA] (stateAt 0x0200 [0x1B, 0x34, 0x12]) with r1 := 0x55 } =
      some ([0x00, 0xFF, 0x00], 0x80, 0xFD, 0x0203, 2) := by decide

/-- Vector CLC1. -/
theorem test_clcImp :
    stepRegs { stateAt 0x0200 [0x8C] with sr := 0x83 } =
      some ([0x00, 0x00, 0x00], 0x82, 0xFD, 0x0201, 0) := by decide

/-- Vector CLC4. -/
theorem test_clcAbs :
    stepRegs { stateAt 0x0200 [0x2C, 0xEE, 0xDD] with sr := 0xFF } =
      some ([0x00, 0x00, 0x00], 0xFE, 0xFD, 0x0203, 2) := by decide

/-- Vector BRK1. -/
theorem test_brkImp :
    stepRegs (withBytes 0xFFFF [0x03] (stateAt 0x0200 [0x80])) =
      some ([0x00, 0x00, 0x00], 0x04, 0xFA, 0x0300, 0) := by decide

/-- Vector BRK1. -/
theorem test_brkImp_frame :
    stepMem (withBytes 0xFFFF [0x03] (stateAt 0x0200 [0x80])) [0x01FD, 0x01FC, 0x01FB] =
      some ([0x02, 0x02, 0x00], [(0x01FB, 0x00), (0x01FC, 0x00), (0x01FD, 0x00)]) := by decide

/-- Vector BRK3. -/
theorem test_brkImm_frame :
    (stepMem { withBytes 0xFFFF [0x03] (stateAt 0x0200 [0x40, 0xAA]) with sr := 0x83 } [0x01FD, 0x01FC, 0x01FB]).map Prod.fst = some [0x02, 0x03, 0x83] := by decide

/-- Vector BRK2. -/
theorem test_brkAbs_frame :
    (stepMem (withBytes 0xFFFF [0x03] (stateAt 0x0200 [0x00, 0xAA, 0xBB])) [0x01FD, 0x01FC, 0x01FB]).map Prod.fst = some [0x02, 0x04, 0x00] := by decide

/-- Vector BRK5. -/
theorem test_brkImp_stack_wraps :
    (stepMem { withBytes 0xFFFF [0x03] (stateAt 0x0200 [0x80]) with sp := 0x01 } [0x0101, 0x0100, 0x01FF]).map Prod.fst = some [0x02, 0x02, 0x00] := by decide

/-- Vector BRK10. -/
theorem test_brkImp_at_top :
    stepRegs (stateAt 0xFFFF [0x80]) =
      some ([0x00, 0x00, 0x00], 0x04, 0xFA, 0x8000, 0) := by decide

/-- Vector BRK4. -/
theorem test_illegal :
    stepRegs { withBytes 0xFFFF [0x03] (stateAt 0x0200 [0xFF, 0xAA, 0xBB]) with sr := 0x04 } =
      some ([0x00, 0x00, 0x00], 0x04, 0xFA, 0x0300, 2) := by decide

/-- Vector BRK9. -/
theorem test_illegal_frame :
    (stepMem (withBytes 0xFFFF [0x03] (stateAt 0x1234 [0x0D, 0x00, 0x00])) [0x01FD, 0x01FC, 0x01FB]).map Prod.fst = some [0x12, 0x38, 0x00] := by decide

/-! ## Non-default parameters (LD8, JPC9, JPC10), Reset, Change Map -/

/-- Vector LD8: N stays clear on 0x80. -/
theorem test_load_at_never :
    (loadHandler paramsNever .r0 0x0201 (stateAt 0x0202 [])).sr = 0x02 ∧
      (loadHandler paramsNever .r0 0x0202 (stateAt 0x0202 [0x80])).sr = 0x00 := by decide

/-- Vector JPC9. -/
theorem test_jump_sext :
    (jumpIfHandler .carry { params with jrel := .sextByte } 0x0201
      { stateAt 0x0201 [0xFE] with pc := 0x0202, sr := 0x01 }).pc = 0x0200 := by decide

/-- Vector JPC10. -/
theorem test_jump_address :
    (jumpIfHandler .carry { params with jrel := .address } 0x0201
      { stateAt 0x0201 [0xFE] with pc := 0x0202, sr := 0x01 }).pc = 0x0403 := by decide

/-- Vector RST1. -/
theorem test_reset_command :
    regsOf (State.hostReset { stateAt 0xFFFC [0x34, 0x12] with r0 := 1, r1 := 2, r2 := 3, sr := 0xFF, sp := 0x10, hc := 2 }) =
      ([0x00, 0x00, 0x00], 0x00, 0xFD, 0x1234, 2) := by decide

/-- Vectors CM1, CM2. -/
theorem test_change_map_insert_once :
    (((stateAt 0x2000 [0x11]).memWrite 0x2000 0x22).memWrite 0x2000 0x33).cm = [(0x2000, 0x11)] := by decide

/-- Vector CM3. -/
theorem test_change_map_same_value :
    ((stateAt 0x2000 [0x11]).memWrite 0x2001 0x00).cm = [(0x2001, 0x00)] := by decide

/-- The canonical form (log 16). -/
theorem test_write_of_unlisted_value_removes_entry :
    ((stateAt 0x2000 [0x11]).memWrite 0x2000 0x00).mem = [] := by decide

/-- Vector RST2, its first step. -/
theorem test_zero_memory_first_step :
    regsOf <$> after (step State.reset) = some ([0x00, 0x00, 0x00], 0x04, 0xFA, 0x0000, 2) := by decide

/-! ## Witnesses: concrete cases that meet the hypotheses of the statements -/

theorem witness_default_table_wf : paramsWf params = true := by decide +kernel

theorem witness_ill_formed_table : paramsWf { params with itab := fun _ => 0xFF } = false := by decide +kernel

theorem witness_run_of_ready :
    Emulator.run params 0 (.ready State.reset) = .next (.ready State.reset) := rfl

theorem witness_well_formed_lines :
    ([⟨.ldAbs .r2, .address 0xFFFF⟩, ⟨.xorImm .r1, .value 0xFF⟩, ⟨.clcImp .r0, .nothing⟩, ⟨.illegal 0xFF, .address 0⟩] :
      List Asm).all Asm.wf = true := by decide

theorem witness_disassemble_ok : disassemble [0x41, 0x05] = .ok (⟨.ldImm .r0, .value 0x05⟩, []) := rfl

theorem witness_carry_changes :
    ((after (exec (.addImm .r0) { stateAt 0x0201 [0xFF] with r0 := 0x01 })).map fun t => t.sr.getLsbD 0) = some true := by
  decide

theorem witness_zero_changes :
    ((after (exec (.ldImm .r0) (stateAt 0x0201 [0x00]))).map fun t => t.sr.getLsbD 1) = some true := by decide

theorem witness_negative_changes :
    ((after (exec (.ldImm .r0) (stateAt 0x0201 [0x80]))).map fun t => t.sr.getLsbD 7) = some true := by decide

theorem witness_never_step :
    paramsNever.negMode = .never ∧ (stateAt 0x0200 [0x47, 0xFF]).sr.getLsbD 7 = false ∧
      (after (stepWith paramsNever (stateAt 0x0200 [0x47, 0xFF]))).map State.pc = some 0x0202 ∧
      fieldsOf (paramsNever.itab ((stateAt 0x0200 [0x47, 0xFF]).memRead 0x0200)) = some (.jpn, .immediate, .r0) := by
  decide +kernel

theorem witness_step_completes :
    (after (step (stateAt 0x0200 [0x80]))).isSome = true ∧
      (decode ((stateAt 0x0200 [0x80]).memRead 0x0200)).op = .brk ∧
      (after (step (stateAt 0x0200 [0x8C]))).isSome = true ∧
      (decode ((stateAt 0x0200 [0x8C]).memRead 0x0200)).op ≠ .brk := by decide

theorem witness_change_map_clauses :
    (after (step { stateAt 0x0200 [0x42, 0x99] with r0 := 0x77, cm := [(0x1000, 0x05)] })).map (fun t =>
      (lookupCell 0x1000 t.cm, lookupCell 0x0201 t.cm, lookupCell 0x0202 t.cm, t.memRead 0x0201)) =
      some (some 0x05, some 0x99, none, 0x77) := by decide

theorem witness_tracks_since_reset : TracksSince [] State.reset := fun _ => rfl

theorem witness_core_run : (match Host.Core.run Sys2Proof.core 1 State.reset with
    | .next t => State.sp t
    | .fault _ => 0x00
    | .refused _ => 0x00) = 0xFA := by decide

theorem witness_construct : Emulator.construct params (Vector.replicate Config.memSize 0x00) =
    .next (.constructed (Memory.ofImage (Vector.replicate Config.memSize 0x00)) 0 []) := by
  rw [Emulator.construct, if_pos witness_default_table_wf]

theorem witness_canonical_memories :
    Memory.wf [(0x0200, 0x41), (0xFFFF, 0x01)] = true ∧
      ∀ a : Addr, Memory.read [(0x0200, 0x41), (0xFFFF, 0x01)] a.toNat = Memory.read [(0x0200, 0x41), (0xFFFF, 0x01)] a.toNat :=
  ⟨by decide, fun _ => rfl⟩

theorem witness_255_pushes : (List.replicate 255 (0x5A : Byte)).length = 255 := List.length_replicate

/-- The bounds 0 and 84 of the first clause: one trap, and 85 traps. -/
theorem witness_trap_counts :
    ((List.range (0 + 1)).foldl (fun u _ => State.takeTrap u) State.reset).sp = 0xFA ∧
      ((List.range (84 + 1)).foldl (fun u _ => State.takeTrap u) State.reset).sp = 0xFE := by decide +kernel

theorem witness_stAbs_then_fetch :
    operandAddress params .absolute (stateAt 0x0201 [0x03, 0x02]) = 0x0203 ∧
      (after (exec (.stAbs .r0) (stateAt 0x0201 [0x03, 0x02]))).map State.pc = some 0x0203 := by decide

theorem witness_stImp_then_fetch : (after (exec (.stImp .r0) (stateAt 0x0000 []))).map State.pc = some 0x0000 := by decide

theorem witness_ph_then_fetch :
    stackAddr 0xFD = 0x01FD ∧
      (after (exec (.phAbs .r0) (stateAt 0x01FB []))).map State.pc = some 0x01FD ∧
      (after (exec (.phImm .r0) (stateAt 0x01FC []))).map State.pc = some 0x01FD ∧
      (after (exec (.phImp .r0) (stateAt 0x01FD []))).map State.pc = some 0x01FD := by decide

theorem witness_lines_at_pc :
    disassemble [0x12, 0x34, 0x12] = .ok (⟨.stAbs .r1, .address 0x1234⟩, []) ∧
      disassemble [0x41, 0x05, 0x00] = .ok (⟨.ldImm .r0, .value 0x05⟩, [0x00]) ∧
      disassemble [0x8C, 0x00, 0x00] = .ok (⟨.clcImp .r0, .nothing⟩, [0x00, 0x00]) ∧
      (stateAt 0x0200 [0x12, 0x34, 0x12]).memRead 0x0202 = 0x12 := ⟨rfl, rfl, rfl, by decide⟩

theorem witness_illegal_at_pc : illegalByte ((stateAt 0x0200 [0xFF]).memRead (stateAt 0x0200 [0xFF]).pc) = true := by decide

theorem witness_displacement_parameters :
    ({ params with jrel := .sextByte } : Params).jrel = .sextByte ∧ ({ params with jrel := .address } : Params).jrel = .address ∧
      queryFlag .carry 0x01 = true ∧ queryFlag .carry 0x02 = false := ⟨rfl, rfl, rfl, rfl⟩

theorem witness_register_written :
    (after (exec (.ldImm .r1) (stateAt 0x0201 [0x80]))).map (fun t => t.reg .r1) = some 0x80 ∧
      (Instr.ldImm .r1).op ∉ [Op.st, .add, .ph, .and, .xor] ∧ Reg.r0 ≠ (Instr.addImm .r1).reg := by decide

theorem witness_memory_written :
    stepMem { stateAt 0x0200 [0x12, 0x34, 0x12] with r1 := 0xAB } [0x1234] = some ([0xAB], [(0x1234, 0x00)]) ∧
      stepMem { stateAt 0x0200 [0x98] with r1 := 0x80 } [0x01FD] = some ([0x80], [(0x01FD, 0x00)]) ∧
      (stepMem (stateAt 0x0200 [0x80]) [0x01FD, 0x01FC]).map Prod.fst = some [0x02, 0x02] := by decide

theorem witness_invariant :
    (stateAt 0x0200 [0x42, 0x99]).inv = true ∧ ((after (step (stateAt 0x0200 [0x42, 0x99]))).map State.inv) = some true := by
  decide

theorem witness_reset_and_load :
    State.reset.inv = true ∧ (Emulator.ready State.reset).reset = .ready State.reset.hostReset ∧
      ∃ t : State, (Emulator.ready State.reset).bulkLoad (Vector.replicate Config.memSize 0x00) = .ready t :=
  ⟨by decide, rfl, _, rfl⟩

end Sys2Proof.Tests
end

section
/-! The observation surface (00_scope.md rule R6): each field of `State.observe` as the part of the state it shows. -/

namespace Sys2Proof.Machine

variable (s : State)

/-! ## Registers, PC, Change Map and highlight counter -/

@[simp] theorem State.observe_x0 : s.observe.x0 = s.reg .r0 := rfl
@[simp] theorem State.observe_x1 : s.observe.x1 = s.reg .r1 := rfl
@[simp] theorem State.observe_x2 : s.observe.x2 = s.reg .r2 := rfl
@[simp] theorem State.observe_pc : s.observe.pc = s.pc := rfl
@[simp] theorem State.observe_changes : s.observe.changes = s.cm := rfl
@[simp] theorem State.observe_highlight : s.observe.highlight = s.hc := rfl

/-! ## Flags

A flag is observed by *query*, a mask test (R15); `queryFlag_eq` turns the test into the bit at the position of R14. -/

@[simp] theorem State.observe_carry : s.observe.carry = s.sr.getLsbD 0 := queryFlag_eq .carry s.sr
@[simp] theorem State.observe_zero : s.observe.zero = s.sr.getLsbD 1 := queryFlag_eq .zero s.sr
@[simp] theorem State.observe_interrupt : s.observe.interrupt = s.sr.getLsbD 2 := queryFlag_eq .interrupt s.sr
@[simp] theorem State.observe_brk : s.observe.brk = s.sr.getLsbD 4 := queryFlag_eq .brk s.sr
@[simp] theorem State.observe_overflow : s.observe.overflow = s.sr.getLsbD 6 := queryFlag_eq .overflow s.sr
@[simp] theorem State.observe_negative : s.observe.negative = s.sr.getLsbD 7 := queryFlag_eq .negative s.sr

/-! ## Memory -/

/-- On a machine that has been Reset the host's `MemRead` is the core's (R56). -/
@[simp] theorem Emulator.memRead_ready (a : Addr) : (Emulator.ready s).memRead a = s.memRead a := rfl

end Sys2Proof.Machine

open Sys2Proof.Machine in
/-- Settles O6: every field of the observation by its own lemma, the flags through `queryFlag_eq`. -/
theorem observationReadsTheState : Obligations.ObservationReadsTheState := fun s =>
  ⟨s.observe_x0, s.observe_x1, s.observe_x2, s.observe_pc,
    s.observe_carry, s.observe_zero, s.observe_interrupt, s.observe_brk, s.observe_overflow, s.observe_negative,
    s.observe_changes, s.observe_highlight, Emulator.memRead_ready s⟩
end

section
/-! The flag accessors (10_state.md rule R15) at the bit positions of R14. Set and clear are the two values of the
assignment `F <- b`, so `getLsbD_assignFlag` says of all three which bit they write and which they keep. -/

namespace Sys2Proof.Machine

@[simp] theorem assignFlag_true (f : Flag) (sr : Byte) : assignFlag f true sr = setFlag f sr := rfl
@[simp] theorem assignFlag_false (f : Flag) (sr : Byte) : assignFlag f false sr = clearFlag f sr := rfl

/-- R14's table, as the obligation lists it, is the model's `flagBit`. -/
theorem flagBit_of_mem_positions :
    ∀ f ∈ [(Flag.carry, 0), (.zero, 1), (.interrupt, 2), (.brk, 4), (.overflow, 6), (.negative, 7)],
      f.2 = flagBit f.1 := by decide

end Sys2Proof.Machine

open Sys2Proof.Machine in
/-- Settles O12: the listed position is the flag's own bit; query reads that bit, and set and clear are the assignment
at true and at false. -/
theorem flagAccessorsTouchOneBit : Obligations.FlagAccessorsTouchOneBit := by
  intro f hf sr
  rw [flagBit_of_mem_positions f hf, ← assignFlag_true, ← assignFlag_false]
  exact ⟨queryFlag_eq f.1 sr, getLsbD_assignFlag f.1 true sr, getLsbD_assignFlag f.1 false sr,
    fun b => getLsbD_assignFlag f.1 b sr⟩
end

section
/-! `MemWrite` (20_memory.md rules R42, R43): what one write stores and tracks, and the Change Map's insert-once rule as a
relation between two states that composes, so that a step has it because each of its writes has it. -/

namespace Sys2Proof.Machine

/-! ## One write -/

@[simp] theorem State.memRead_memWrite_same (s : State) (a : Addr) (v : Byte) : (s.memWrite a v).memRead a = v := by
  rw [State.memRead_memWrite, if_pos rfl]

theorem State.memRead_memWrite_of_ne (s : State) {a b : Addr} (v : Byte) (h : b ≠ a) :
    (s.memWrite a v).memRead b = s.memRead b := by
  rw [State.memRead_memWrite, if_neg h.symm]

/-- Insert-once at every key of the list, addresses or not (R43): a write keeps an entry that is there. -/
theorem State.lookup_memWrite_of_some (s : State) (a : Addr) (v : Byte) {k : Nat} {old : Byte}
    (h : lookupCell k s.cm = some old) : lookupCell k (s.memWrite a v).cm = some old := by
  rw [State.memWrite_cm, ChangeMap.lookup_record, h, Option.getD_some, ite_self]

/-! ## Insert-once between two states (R43) -/

/-- `t` comes after `s` with every change tracked: no entry of the Change Map is changed or removed, a new entry holds
the byte `s` holds, and a byte that differs has an entry. -/
structure RecordsChanges (s t : State) : Prop where
  keeps : ∀ (k : Nat) (v : Byte), lookupCell k s.cm = some v → lookupCell k t.cm = some v
  inserts : ∀ a : Addr, lookupCell a.toNat s.cm = none →
    lookupCell a.toNat t.cm = none ∨ lookupCell a.toNat t.cm = some (s.memRead a)
  covers : ∀ a : Addr, t.memRead a ≠ s.memRead a → lookupCell a.toNat t.cm ≠ none

theorem RecordsChanges.of_mem_cm_eq {s t : State} (hmem : t.mem = s.mem) (hcm : t.cm = s.cm) :
    RecordsChanges s t where
  keeps _ _ h := hcm ▸ h
  inserts _ h := .inl (hcm ▸ h)
  covers a h := absurd (congrArg (fun m : Memory => m.read a.toNat) hmem) h

/-- Where `t` has no entry for an address it holds the byte of `s`, so an entry made after `t` holds that byte too. -/
theorem RecordsChanges.trans {s t u : State} (hst : RecordsChanges s t) (htu : RecordsChanges t u) :
    RecordsChanges s u where
  keeps k v h := htu.keeps k v (hst.keeps k v h)
  inserts a h := by
    rcases hst.inserts a h with hnone | hsome
    · have hbyte : t.memRead a = s.memRead a := by_contra fun hne => hst.covers a hne hnone
      exact hbyte ▸ htu.inserts a hnone
    · exact .inr (htu.keeps _ _ hsome)
  covers a h := by
    by_cases hbyte : t.memRead a = s.memRead a
    · exact htu.covers a (hbyte ▸ h)
    · obtain ⟨v, hv⟩ := Option.ne_none_iff_exists'.1 (hst.covers a hbyte)
      simp [htu.keeps _ v hv]

/-- R42: the write looks at the Change Map and at the byte before it stores. -/
theorem State.memWrite_recordsChanges (s : State) (a : Addr) (v : Byte) : RecordsChanges s (s.memWrite a v) where
  keeps _ _ h := s.lookup_memWrite_of_some a v h
  inserts b h := by
    rw [State.lookup_memWrite]
    by_cases hab : a = b
    · subst hab; simp [h]
    · simp [hab, h]
  covers b h := by
    have hab : a = b := by_contra fun hne => h (s.memRead_memWrite_of_ne v (Ne.symm hne))
    rw [State.lookup_memWrite, if_pos hab]
    exact Option.some_ne_none _

theorem State.push_recordsChanges (s : State) (v : Byte) : RecordsChanges s (s.push v) :=
  (s.memWrite_recordsChanges (stackAddr s.sp) v).trans (.of_mem_cm_eq rfl rfl)

/-- Trap entry is its three pushes and register updates. -/
theorem State.takeTrap_recordsChanges (s : State) : RecordsChanges s s.takeTrap :=
  have hframe : RecordsChanges s s.trapFrame :=
    ((s.push_recordsChanges _).trans (State.push_recordsChanges _ _)).trans (State.push_recordsChanges _ _)
  hframe.trans (.of_mem_cm_eq s.takeTrap_mem s.takeTrap_cm)

/-! ## A whole step -/

/-- The handlers of BRK, ST and PH alone touch memory or the Change Map. -/
theorem handlerOf_mem_cm_of_not_store (p : Params) {op : Op} (hop : op ∉ [Op.brk, .st, .ph]) (r : Reg) (ea : Addr)
    (s : State) : (handlerOf p op r ea s).mem = s.mem ∧ (handlerOf p op r ea s).cm = s.cm := by
  cases op with
  | brk | st | ph => simp at hop
  | ld => simp [handlerOf, loadHandler]
  | add => simp [handlerOf, addHandler]
  | jmp => simp [handlerOf, jumpHandler]
  | jpc | jpz | jpn => simp only [handlerOf, jumpIfHandler]; split <;> simp
  | pl => simp [handlerOf, pullHandler]
  | and => simp [handlerOf, andHandler]
  | xor => simp [handlerOf, xorHandler]
  | clc => simp [handlerOf, clearCarryHandler]

theorem handlerOf_recordsChanges (p : Params) (op : Op) (r : Reg) (ea : Addr) (s : State) :
    RecordsChanges s (handlerOf p op r ea s) := by
  by_cases hop : op ∈ [Op.brk, .st, .ph]
  · simp only [List.mem_cons, List.not_mem_nil, or_false] at hop
    rcases hop with rfl | rfl | rfl
    · exact s.takeTrap_recordsChanges
    · exact s.memWrite_recordsChanges ea (s.reg r)
    · exact s.push_recordsChanges (s.reg r)
  · obtain ⟨hmem, hcm⟩ := handlerOf_mem_cm_of_not_store p hop r ea s
    exact .of_mem_cm_eq hmem hcm

/-- Fetch and resolver write the PC and the highlight counter only; what is left of the step is its handler. -/
theorem step_recordsChanges {s t : State} (h : step s = .next t) : RecordsChanges s t := by
  rw [step, exec_eq, runForm_eq] at h
  obtain rfl := Host.Outcome.next.inj h
  refine .trans ?_ (handlerOf_recordsChanges _ _ _ _ _)
  exact .of_mem_cm_eq rfl rfl

/-- Reset keeps the Change Map (R43, R195). -/
theorem Emulator.cm_of_reset_ready {s t : State} (h : (Emulator.ready s).reset = .ready t) : t.cm = s.cm := by
  obtain rfl : s.hostReset = t := Emulator.ready.inj h
  rw [State.hostReset_eq]

end Sys2Proof.Machine

open Sys2Proof.Machine in
/-- Settles O17: read after write, the tracking of one write, and the fields a write leaves alone. -/
theorem memWriteStoresAndTracks : Obligations.MemWriteStoresAndTracks := fun s a v =>
  ⟨s.memRead_memWrite_same a v, fun _ => s.memRead_memWrite_of_ne v, s.tracks_memWrite a v,
    fun q _ => s.memWrite_reg q a v, s.memWrite_pc a v, s.memWrite_sr a v, s.memWrite_sp a v, s.memWrite_hc a v⟩

open Sys2Proof.Machine in
/-- Settles O18: every write records its change, recording composes, and a step is a sequence of writes. -/
theorem changeMapInsertsOnce : Obligations.ChangeMapInsertsOnce := by
  refine ⟨fun s t h => ?_, fun s t => Emulator.cm_of_reset_ready⟩
  obtain ⟨keeps, inserts, covers⟩ := step_recordsChanges h
  exact ⟨keeps, inserts, covers⟩
end

section
/-! The stack primitives (20_memory.md rules R59 to R61): Push and Pop at addresses written out, their round trip, and
a run of pushes through the page. -/

namespace Sys2Proof.Machine

/-! ## Push and Pop -/

theorem stackAddr_eq (sp : Byte) : stackAddr sp = 0x0100 + sp.setWidth 16 := rfl

theorem State.push_eq (s : State) (v : Byte) : s.push v = (s.memWrite (stackAddr s.sp) v).setSp (s.sp - 1) := rfl

theorem State.pop_eq (s : State) : s.pop = (s.memRead (stackAddr (s.sp + 1)), s.setSp (s.sp + 1)) := rfl

@[simp] theorem State.memRead_push_same (s : State) (v : Byte) : (s.push v).memRead (stackAddr s.sp) = v := by
  rw [State.memRead_push, if_pos rfl]

theorem State.memRead_push_of_ne (s : State) {q : Byte} (v : Byte) (h : s.sp ≠ q) :
    (s.push v).memRead (stackAddr q) = s.memRead (stackAddr q) := by
  rw [State.memRead_push, if_neg (stackAddr_inj.not.2 h)]

/-- Pop undoes Push at every SP, the wrap included. -/
theorem State.pop_push (s : State) (v : Byte) : (s.push v).pop.1 = v ∧ (s.push v).pop.2.sp = s.sp := by
  have hsp : (s.push v).sp + 1 = s.sp := BitVec.sub_add_cancel s.sp 1
  rw [State.pop_fst, State.pop_snd, State.setSp_sp, hsp]
  exact ⟨s.memRead_push_same v, rfl⟩

theorem stackAddr_mem_page (sp : Byte) : 0x0100 ≤ (stackAddr sp).toNat ∧ (stackAddr sp).toNat ≤ 0x01FF := by
  have hsp := sp.isLt
  rw [stackAddr_toNat]
  omega

/-! ## A run of pushes (R61) -/

/-- SP after any number of pushes, modulo 256. -/
theorem State.foldl_push_sp (s : State) (vs : List Byte) :
    (vs.foldl State.push s).sp = s.sp - BitVec.ofNat 8 vs.length := by
  induction vs generalizing s with
  | nil => simp
  | cons v vs ih =>
    rw [List.foldl_cons, ih, State.push_sp, List.length_cons]
    bv_omega

/-- A byte of the page outlives as many pushes as SP is steps above it. -/
theorem State.memRead_foldl_push (s : State) (q : Byte) (vs : List Byte) (h : vs.length ≤ (s.sp - q).toNat) :
    (vs.foldl State.push s).memRead (stackAddr q) = s.memRead (stackAddr q) := by
  induction vs generalizing s with
  | nil => rfl
  | cons v vs ih =>
    rw [List.length_cons] at h
    have hne : s.sp ≠ q := by rintro rfl; simp at h
    have hfits : vs.length ≤ ((s.push v).sp - q).toNat := by rw [State.push_sp]; bv_omega
    rw [List.foldl_cons, ih _ hfits, State.memRead_push_of_ne s v hne]

/-- The pointer is back where it began after 256 pushes. -/
theorem State.foldl_push_sp_of_length_eq_256 (s : State) {vs : List Byte} (h : vs.length = 256) :
    (vs.foldl State.push s).sp = s.sp := by
  rw [State.foldl_push_sp, h]
  exact BitVec.sub_zero _

/-- After one push SP is 255 steps above the byte pushed. -/
theorem State.memRead_push_foldl_push (s : State) (v0 : Byte) {vs : List Byte} (h : vs.length ≤ 255) :
    (vs.foldl State.push (s.push v0)).memRead (stackAddr s.sp) = v0 := by
  have hfits : vs.length ≤ ((s.push v0).sp - s.sp).toNat := by rw [State.push_sp]; bv_omega
  rw [State.memRead_foldl_push _ _ vs hfits, State.memRead_push_same]

end Sys2Proof.Machine

open Sys2Proof.Machine in
/-- Settles O21: the primitives' equations, with the stack address written out. -/
theorem stackPrimitivesFollowTheRules : Obligations.StackPrimitivesFollowTheRules := by
  intro s v
  simp only [← stackAddr_eq]
  exact ⟨s.push_eq v, s.memRead_push_same v, s.pop_eq⟩

open Sys2Proof.Machine in
/-- Settles O22: 255 pushes after the first do not reach its byte, and bring SP back to it for the 257th. -/
theorem stackWrapsInItsPage : Obligations.StackWrapsInItsPage := by
  refine ⟨State.pop_push, stackAddr_mem_page, fun s => ⟨s.pop_fst, rfl⟩, fun s v0 v vs hlen => ?_⟩
  refine ⟨s.memRead_push_foldl_push v0 hlen.le, ?_⟩
  have hback : ((v0 :: vs).foldl State.push s).sp = s.sp :=
    s.foldl_push_sp_of_length_eq_256 (by rw [List.length_cons, hlen])
  rw [← hback]
  exact State.memRead_push_same _ v
end

section
/-! The illegal bytes (30_encoding.md rule R78): how many there are, what the decoder makes of one, and the trap entry of
BRK.abs (41_brk.md rule R110) that a step on one is. -/

namespace Sys2Proof

/-! ## Decoding -/

/-- R78's count; the list is small and closed. -/
theorem length_filter_illegalByte :
    ((List.range 256).filter fun n => illegalByte (BitVec.ofNat 8 n)).length = 139 := by decide +kernel

theorem illegalByte_iff_fieldsInRange (b : Byte) : illegalByte b = true ↔ fieldsInRange b = false := by
  rw [Laws.illegalByte_eq_not_fieldsInRange, Bool.not_eq_true']

/-- A byte outside the legal ranges never reaches the table lookup (R78). -/
theorem decode_of_illegalByte {b : Byte} (h : illegalByte b = true) : decode b = .illegal b := by
  rw [illegalByte_iff_fieldsInRange] at h
  simp [decode, h]

namespace Machine

/-! ## Executing -/

/-- The mode, the mnemonic and the register ILLEGAL executes with are those of `BRK.abs R0` (R78). -/
theorem exec_illegal_eq_brkAbs (raw : Byte) (s : State) : exec (.illegal raw) s = exec (.brkAbs .r0) s := by
  rw [exec_eq, exec_eq]
  rfl

/-- `BRK.abs` passes its two operand bytes and takes the trap (R110). -/
theorem exec_brkAbs (r : Reg) (s : State) :
    exec (.brkAbs r) s = .next ((s.setPc (s.pc + 2)).setHc 2).takeTrap := by
  rw [exec_eq, runForm_eq]
  rfl

/-- Fetch leaves the PC past the raw byte; nothing else of the byte reaches the execution. -/
theorem step_of_illegalByte {s : State} (h : illegalByte (s.memRead s.pc) = true) :
    step s = exec (.brkAbs .r0) (s.setPc (s.pc + 1)) :=
  calc step s
    _ = exec (decode (s.memRead s.pc)) (s.setPc (s.pc + 1)) := rfl
    _ = exec (.illegal (s.memRead s.pc)) (s.setPc (s.pc + 1)) := by rw [decode_of_illegalByte h]
    _ = exec (.brkAbs .r0) (s.setPc (s.pc + 1)) := exec_illegal_eq_brkAbs _ _

/-- The PC a trap saves, read back from its frame: high byte at SP, low byte below it. -/
theorem State.takeTrap_savedPc (s : State) :
    s.takeTrap.memRead (stackAddr s.sp) ++ s.takeTrap.memRead (stackAddr (s.sp - 1)) = s.pc + 1 := by
  obtain ⟨hhigh_low, -, -⟩ := stackAddr_frame s.sp
  rw [State.takeTrap_memRead, State.takeTrap_memRead, if_pos rfl, if_neg hhigh_low.symm, if_pos rfl]
  exact (BitVec.extractLsb'_append_extractLsb'_eq_extractLsb' rfl).trans BitVec.extractLsb'_eq_self

end Machine
end Sys2Proof

open Sys2Proof Sys2Proof.Machine in
/-- Settles O31: an illegal byte steps as `BRK.abs R0`, which traps with the PC 1 + 2 past the raw byte; trap entry adds
1 more to the PC it saves and keeps the highlight counter. -/
theorem illegalBytesExecuteAsBreak : Obligations.IllegalBytesExecuteAsBreak := by
  refine ⟨length_filter_illegalByte, illegalByte_iff_fieldsInRange, fun s h => ?_⟩
  have hexec := exec_brkAbs .r0 (s.setPc (s.pc + 1))
  refine ⟨_, (step_of_illegalByte h).trans hexec, hexec, State.takeTrap_hc _, ?_⟩
  refine (State.takeTrap_savedPc _).trans ?_
  show s.pc + 1 + 2 + 1 = s.pc + 4
  bv_omega
end

section
/-! ST (42_load_store.md rule R121): its three forms are one memory write, followed by the resolver's move of the PC and
the highlight counter. -/

namespace Sys2Proof.Machine

/-- The forms the obligation lists are those of the mnemonic ST, each in its mode, on the register given. -/
theorem fields_of_mem_storeForms (r : Reg) :
    ∀ f ∈ [(Instr.stAbs r, Mode.absolute), (.stImm r, .immediate), (.stImp r, .implied)],
      f.1.op = .st ∧ f.1.mode = f.2 ∧ f.1.reg = r := by
  simp [Instr.op, Instr.mode, Instr.reg]

/-- The resolver leaves memory, the Change Map and the registers alone, so the write is the one `s` itself would make. -/
theorem exec_of_op_st {i : Instr} (hop : i.op = .st) (s : State) :
    exec i s = .next (((s.memWrite (operandAddress params i.mode s) (s.reg i.reg)).setPc
      (s.pc + BitVec.ofNat 16 (operandBytes i.mode))).setHc (operandBytes i.mode)) := by
  rw [exec_eq, runForm_eq, hop, handlerOf, storeHandler, State.setHc_reg, State.setPc_reg]
  rfl

end Sys2Proof.Machine

open Sys2Proof.Machine in
/-- Settles O33: the state after is `s` with one tracked write, the PC and the highlight counter set. -/
theorem storeWritesTheOperandAddress : Obligations.StoreWritesTheOperandAddress := by
  refine ⟨by decide, fun r s f hf => ?_⟩
  obtain ⟨hop, hmode, hreg⟩ := fields_of_mem_storeForms r f hf
  have hexec := exec_of_op_st hop s
  rw [hmode, hreg] at hexec
  refine ⟨_, hexec, ?stored, fun a ha => ?others, ?tracked, fun q _ => ?regs, rfl, rfl, rfl, rfl⟩
  case stored => rw [State.setHc_memRead, State.setPc_memRead, State.memRead_memWrite_same]
  case others => rw [State.setHc_memRead, State.setPc_memRead, State.memRead_memWrite_of_ne s _ ha]
  case tracked => exact s.tracks_memWrite _ (s.reg r)
  case regs => rw [State.setHc_reg, State.setPc_reg, State.memWrite_reg]
end

section
/-! JMP (44_jumps.md rule R140): its three forms move the PC to the operand address, over the resolver's move past the
operand bytes, and leave the highlight counter as the resolver set it. -/

namespace Sys2Proof.Machine

/-- The forms the obligation lists are those of the mnemonic JMP, each in its mode. -/
theorem fields_of_mem_jumpForms (r : Reg) :
    ∀ f ∈ [(Instr.jmpAbs r, Mode.absolute), (.jmpImm r, .immediate), (.jmpImp r, .implied)],
      f.1.op = .jmp ∧ f.1.mode = f.2 := by
  simp [Instr.op, Instr.mode]

/-- The jump overwrites the PC the resolver left, so of the resolver's work the highlight counter alone remains; the
register field is not read (R81). -/
theorem exec_of_op_jmp {i : Instr} (hop : i.op = .jmp) (s : State) :
    exec i s = .next ((s.setPc (operandAddress params i.mode s)).setHc (operandBytes i.mode)) := by
  rw [exec_eq, runForm_eq, hop, handlerOf, jumpHandler]
  rfl

end Sys2Proof.Machine

open Sys2Proof.Machine in
/-- Settles O35: the state after is `s` with the PC and the highlight counter set. -/
theorem jumpGoesToTheOperandAddress : Obligations.JumpGoesToTheOperandAddress := by
  refine ⟨by decide, fun r s f hf => ?_⟩
  obtain ⟨hop, hmode⟩ := fields_of_mem_jumpForms r f hf
  have hexec := exec_of_op_jmp hop s
  rw [hmode] at hexec
  refine ⟨_, hexec, rfl, rfl, fun q _ => ?regs, rfl, rfl, fun a => ?memory, rfl⟩
  case regs => rw [State.setHc_reg, State.setPc_reg]
  case memory => rw [State.setHc_memRead, State.setPc_memRead]
end

section
/-! PH (45_stack.md rule R150): its three forms are one Push of the register, with the resolver's move of the PC and the
highlight counter; the operand address is not used. -/

namespace Sys2Proof.Machine

/-! ## Push as one tracked write -/

theorem State.memRead_push_of_ne_stackAddr (s : State) {a : Addr} (v : Byte) (h : a ≠ stackAddr s.sp) :
    (s.push v).memRead a = s.memRead a :=
  s.memRead_memWrite_of_ne v h

/-- The move of SP does not reach the Change Map, so a push is tracked as its write is (R59). -/
theorem State.tracks_push (s : State) (v : Byte) : TracksWrites [stackAddr s.sp] s (s.push v) :=
  s.tracks_memWrite (stackAddr s.sp) v

/-! ## The forms of PH -/

/-- The forms the obligation lists are those of the mnemonic PH, each in its mode, on the register given. -/
theorem fields_of_mem_pushForms (r : Reg) :
    ∀ f ∈ [(Instr.phAbs r, Mode.absolute), (.phImm r, .immediate), (.phImp r, .implied)],
      f.1.op = .ph ∧ f.1.mode = f.2 ∧ f.1.reg = r := by
  simp [Instr.op, Instr.mode, Instr.reg]

/-- The resolver leaves SP, the registers, memory and the Change Map alone, so the push is the one `s` itself would
make. -/
theorem exec_of_op_ph {i : Instr} (hop : i.op = .ph) (s : State) :
    exec i s = .next (((s.push (s.reg i.reg)).setPc (s.pc + BitVec.ofNat 16 (operandBytes i.mode))).setHc
      (operandBytes i.mode)) := by
  rw [exec_eq, runForm_eq, hop, handlerOf, pushHandler, State.setHc_reg, State.setPc_reg]
  rfl

end Sys2Proof.Machine

open Sys2Proof.Machine in
/-- Settles O38: the state after is `s` with the register pushed, the PC and the highlight counter set. -/
theorem pushStoresTheRegister : Obligations.PushStoresTheRegister := by
  refine ⟨by decide, fun r s f hf => ?_⟩
  obtain ⟨hop, hmode, hreg⟩ := fields_of_mem_pushForms r f hf
  have hexec := exec_of_op_ph hop s
  rw [hmode, hreg] at hexec
  refine ⟨_, hexec, ?pushed, fun a ha => ?others, ?tracked, rfl, fun q _ => ?regs, rfl, rfl, rfl⟩
  case pushed => rw [State.setHc_memRead, State.setPc_memRead, State.memRead_push_same]
  case others => rw [State.setHc_memRead, State.setPc_memRead, State.memRead_push_of_ne_stackAddr s _ ha]
  case tracked => exact s.tracks_push (s.reg r)
  case regs => rw [State.setHc_reg, State.setPc_reg, State.push_reg]
end

section
/-! CLC (46_logic_flags.md rule R162): its three forms clear bit 0 of SR, with the resolver's move of the PC and the
highlight counter; neither the operand address nor the register field is used. -/

namespace Sys2Proof.Machine

/-- R14's mask of C is bit 0, so R15's clear keeps the seven bits of 0xFE. -/
theorem clearFlag_carry (sr : Byte) : clearFlag .carry sr = sr &&& 0xFE := rfl

/-- The forms the obligation lists are those of the mnemonic CLC, each in its mode. -/
theorem fields_of_mem_clearCarryForms (r : Reg) :
    ∀ f ∈ [(Instr.clcAbs r, Mode.absolute), (.clcImm r, .immediate), (.clcImp r, .implied)],
      f.1.op = .clc ∧ f.1.mode = f.2 := by
  simp [Instr.op, Instr.mode]

/-- The resolver leaves SR alone, so the bit is cleared in the SR of `s` itself; the register field is not read (R81). -/
theorem exec_of_op_clc {i : Instr} (hop : i.op = .clc) (s : State) :
    exec i s = .next (((s.setSr (s.sr &&& 0xFE)).setPc (s.pc + BitVec.ofNat 16 (operandBytes i.mode))).setHc
      (operandBytes i.mode)) := by
  rw [exec_eq, runForm_eq, hop, handlerOf, clearCarryHandler, clearFlag_carry, State.setHc_sr, State.setPc_sr]
  rfl

end Sys2Proof.Machine

open Sys2Proof.Machine in
/-- Settles O41: the state after is `s` with bit 0 of SR cleared, the PC and the highlight counter set. -/
theorem clearCarryClearsOnlyCarry : Obligations.ClearCarryClearsOnlyCarry := by
  refine ⟨by decide, fun r s f hf => ?_⟩
  obtain ⟨hop, hmode⟩ := fields_of_mem_clearCarryForms r f hf
  have hexec := exec_of_op_clc hop s
  rw [hmode] at hexec
  refine ⟨_, hexec, rfl, fun q _ => ?regs, rfl, rfl, rfl, fun a => ?memory, rfl⟩
  case regs => rw [State.setHc_reg, State.setPc_reg, State.setSr_reg]
  case memory => rw [State.setHc_memRead, State.setPc_memRead, State.setSr_memRead]
end

section
/-! The Reset command (70_reset_and_hazards.md rules R190, R195): each field of the state after Reset, through
`State.hostReset_eq`. -/

namespace Sys2Proof.Machine

variable (s : State)

/-! ## What Reset writes (R190) -/

@[simp] theorem State.hostReset_reg (q : Reg) : s.hostReset.reg q = 0 := by
  rw [State.hostReset_eq]
  cases q <;> rfl

@[simp] theorem State.hostReset_sr : s.hostReset.sr = 0 := by rw [State.hostReset_eq]
@[simp] theorem State.hostReset_sp : s.hostReset.sp = 0xFD := by rw [State.hostReset_eq]

/-- The vector is read after the registers are written, but from the memory of `s`: no register write reaches memory. -/
@[simp] theorem State.hostReset_pc : s.hostReset.pc = s.memRead 0xFFFD ++ s.memRead 0xFFFC := by
  rw [State.hostReset_eq, State.readWord]

/-! ## What Reset leaves alone (R195) -/

@[simp] theorem State.hostReset_mem : s.hostReset.mem = s.mem := by rw [State.hostReset_eq]
@[simp] theorem State.hostReset_cm : s.hostReset.cm = s.cm := Emulator.cm_of_reset_ready rfl
@[simp] theorem State.hostReset_hc : s.hostReset.hc = s.hc := by rw [State.hostReset_eq]

end Sys2Proof.Machine

open Sys2Proof.Machine in
/-- Settles O1: the state after the command is `s.hostReset`, read field by field. -/
theorem resetCommandGivesResetValues : Obligations.ResetCommandGivesResetValues := fun s =>
  ⟨s.hostReset, rfl, s.hostReset_reg .r0, s.hostReset_reg .r1, s.hostReset_reg .r2, s.hostReset_sr, s.hostReset_sp,
    s.hostReset_pc, s.hostReset_mem, s.hostReset_cm, s.hostReset_hc⟩
end

section
/-! The encoding (30_encoding.md): a combined byte and its three fields determine one another, the decoder and the
encoder are inverse on well-formed instructions, and so are the assembler and its reader on lines. -/

namespace Sys2Proof

/-! ## The fields of a combined byte (R70, R71) -/

@[simp] theorem opField_toNat (c : Byte) : (opField c).toNat = c.toNat % 16 := by simp [opField]

@[simp] theorem regField_toNat (c : Byte) : (regField c).toNat = c.toNat / 16 % 4 := by
  simp [regField, Nat.shiftRight_eq_div_pow]

@[simp] theorem modeField_toNat (c : Byte) : (modeField c).toNat = c.toNat / 64 := by
  have := c.isLt
  simp only [modeField, BitVec.extractLsb'_toNat, Nat.shiftRight_eq_div_pow]
  omega

/-- The three shifted fields do not overlap, so R71's formula is a concatenation. -/
theorem combinedByte_eq_append (op : BitVec 4) (m r : BitVec 2) : combinedByte op m r = (m ++ r) ++ op := by
  revert op m r; decide +kernel

/-- R71 as arithmetic. -/
theorem combinedByte_toNat (op : BitVec 4) (m r : BitVec 2) :
    (combinedByte op m r).toNat = m.toNat * 64 + r.toNat * 16 + op.toNat := by
  have hop := op.isLt
  have hr := r.isLt
  rw [combinedByte_eq_append, BitVec.toNat_append, BitVec.toNat_append, ← Nat.shiftLeft_add_eq_or_of_lt hop,
    ← Nat.shiftLeft_add_eq_or_of_lt hr, Nat.shiftLeft_eq, Nat.shiftLeft_eq]
  omega

/-- A byte is the combination of three fields exactly when they are its fields. -/
theorem eq_combinedByte_iff {c : Byte} {op : BitVec 4} {m r : BitVec 2} :
    c = combinedByte op m r ↔ opField c = op ∧ modeField c = m ∧ regField c = r := by
  have hc := c.isLt
  have hop := op.isLt
  have hm := m.isLt
  have hr := r.isLt
  simp only [← BitVec.toNat_inj, combinedByte_toNat, opField_toNat, modeField_toNat, regField_toNat]
  omega

/-! ## Field numbers and what they name (R72 to R74) -/

theorem opOfBits_eq_some_iff {n : BitVec 4} {op : Op} : opOfBits n = some op ↔ n = opBits op := by
  revert n; cases op <;> decide

theorem modeOfBits_eq_some_iff {n : BitVec 2} {m : Mode} : modeOfBits n = some m ↔ n = modeBits m := by
  revert n; cases m <;> decide

theorem regOfBits_eq_some_iff {n : BitVec 2} {r : Reg} : regOfBits n = some r ↔ n = regBits r := by
  revert n; cases r <;> decide

theorem isSome_opOfBits (n : BitVec 4) : (opOfBits n).isSome = decide (n ≤ 0xC) := by revert n; decide
theorem isSome_modeOfBits (n : BitVec 2) : (modeOfBits n).isSome = decide (n ≤ 2) := by revert n; decide
theorem isSome_regOfBits (n : BitVec 2) : (regOfBits n).isSome = decide (n ≤ 2) := by revert n; decide

theorem fieldsOf_eq_some_iff {c : Byte} {op : Op} {m : Mode} {r : Reg} :
    fieldsOf c = some (op, m, r) ↔ c = combinedByte (opBits op) (modeBits m) (regBits r) := by
  rw [eq_combinedByte_iff, ← opOfBits_eq_some_iff, ← modeOfBits_eq_some_iff, ← regOfBits_eq_some_iff, fieldsOf]
  cases opOfBits (opField c) <;> cases modeOfBits (modeField c) <;> cases regOfBits (regField c) <;> simp

/-- R76's ranges ask that every field names something. -/
theorem fieldsInRange_eq_isSome (c : Byte) : fieldsInRange c = (fieldsOf c).isSome := by
  rw [fieldsInRange, ← isSome_opOfBits, ← isSome_regOfBits, ← isSome_modeOfBits, fieldsOf]
  cases opOfBits (opField c) <;> cases modeOfBits (modeField c) <;> cases regOfBits (regField c) <;> rfl

theorem fieldsInRange_iff_exists {c : Byte} : fieldsInRange c = true ↔
    ∃ (op : Op) (m : Mode) (r : Reg), c = combinedByte (opBits op) (modeBits m) (regBits r) := by
  simp only [fieldsInRange_eq_isSome, Option.isSome_iff_exists, Prod.exists, fieldsOf_eq_some_iff]

theorem fieldsInRange_iff_ranges (c : Byte) :
    fieldsInRange c = true ↔ c.toNat % 16 ≤ 0xC ∧ c.toNat / 16 % 4 ≤ 2 ∧ c.toNat / 64 ≤ 2 := by
  simp only [fieldsInRange, Bool.and_eq_true, decide_eq_true_iff, BitVec.le_def, opField_toNat, regField_toNat,
    modeField_toNat, and_assoc]
  rfl

/-- Every byte is illegal or combines a mnemonic, a mode and a register. -/
theorem illegalByte_or_combinedByte (b : Byte) :
    illegalByte b = true ∨ ∃ (op : Op) (m : Mode) (r : Reg), b = combinedByte (opBits op) (modeBits m) (regBits r) := by
  rw [← fieldsInRange_iff_exists, illegalByte_iff_fieldsInRange]
  cases fieldsInRange b <;> simp

/-! ## Constructors and their fields (R84) -/

@[simp] theorem Instr.op_ofFields (op : Op) (m : Mode) (r : Reg) : (Instr.ofFields op m r).op = op := by
  cases op <;> cases m <;> rfl

@[simp] theorem Instr.mode_ofFields (op : Op) (m : Mode) (r : Reg) : (Instr.ofFields op m r).mode = m := by
  cases op <;> cases m <;> rfl

@[simp] theorem Instr.reg_ofFields (op : Op) (m : Mode) (r : Reg) : (Instr.ofFields op m r).reg = r := by
  cases op <;> cases m <;> rfl

@[simp] theorem Instr.wf_ofFields (op : Op) (m : Mode) (r : Reg) : (Instr.ofFields op m r).wf = true := by
  cases op <;> cases m <;> rfl

/-- Every constructor but ILLEGAL is the one of its own fields. -/
theorem Instr.illegal_or_ofFields (i : Instr) :
    (∃ raw : Byte, i = .illegal raw) ∨ Instr.ofFields i.op i.mode i.reg = i := by
  cases i with
  | illegal raw => exact .inl ⟨raw, rfl⟩
  | _ => exact .inr rfl

/-! ## One instruction byte -/

theorem encode_ofFields (op : Op) (m : Mode) (r : Reg) :
    encode (Instr.ofFields op m r) = combinedByte (opBits op) (modeBits m) (regBits r) := by
  cases op <;> cases m <;> rfl

/-- The default table leaves a legal byte as it is, and the fields of the byte select the constructor. -/
theorem decode_combinedByte (op : Op) (m : Mode) (r : Reg) :
    decode (combinedByte (opBits op) (modeBits m) (regBits r)) = Instr.ofFields op m r := by
  rw [decode, if_pos (fieldsInRange_iff_exists.2 ⟨op, m, r, rfl⟩), Laws.itabDefault_combinedByte,
    fieldsOf_eq_some_iff.2 rfl]

theorem decode_encode {i : Instr} (h : i.wf = true) : decode (encode i) = i := by
  rcases i.illegal_or_ofFields with ⟨raw, rfl⟩ | hi
  · exact decode_of_illegalByte h
  · rw [← hi, encode_ofFields, decode_combinedByte]

theorem encode_decode (b : Byte) : encode (decode b) = b := by
  rcases illegalByte_or_combinedByte b with h | ⟨op, m, r, rfl⟩
  · rw [decode_of_illegalByte h]; rfl
  · rw [decode_combinedByte, encode_ofFields]

theorem decode_wf (b : Byte) : (decode b).wf = true := by
  rcases illegalByte_or_combinedByte b with h | ⟨op, m, r, rfl⟩
  · rw [decode_of_illegalByte h]; exact h
  · rw [decode_combinedByte, Instr.wf_ofFields]

/-! ## Operand bytes (R79, R82) -/

theorem append_extract_bytes (a : Addr) : a.extractLsb' 8 8 ++ a.extractLsb' 0 8 = a :=
  (BitVec.extractLsb'_append_extractLsb'_eq_extractLsb' rfl).trans BitVec.extractLsb'_eq_self

/-- Reading an operand takes exactly the bytes the operand is written as. -/
theorem decodeOperand_eq_ok_iff {m : Mode} {bs rest : List Byte} {o : Operand} :
    decodeOperand m bs = .ok (o, rest) ↔ Operand.fits m o = true ∧ bs = encodeOperand o ++ rest := by
  constructor
  · intro h
    match m, bs with
    | .absolute, lo :: hi :: tail =>
      cases h
      refine ⟨rfl, ?_⟩
      have hlo : (hi ++ lo).extractLsb' 0 8 = lo := BitVec.extractLsb'_append_eq_right
      have hhi : (hi ++ lo).extractLsb' 8 8 = hi := BitVec.extractLsb'_append_eq_left
      rw [encodeOperand, hlo, hhi]; rfl
    | .absolute, [] | .absolute, [_] | .immediate, [] => cases h
    | .immediate, v :: tail => cases h; exact ⟨rfl, rfl⟩
    | .implied, tail => cases h; exact ⟨rfl, rfl⟩
  · rintro ⟨hfits, rfl⟩
    cases m <;> cases o <;> simp only [Operand.fits, Bool.false_eq_true] at hfits
    case absolute.address a =>
      simp only [encodeOperand, List.cons_append, List.nil_append, decodeOperand, append_extract_bytes]
    case immediate.value v => rfl
    case implied.nothing => rfl

theorem decodeOperand_eq_error_iff {m : Mode} {bs : List Byte} :
    decodeOperand m bs = .error .truncated ↔ bs.length < operandBytes m := by
  match m, bs with
  | .absolute, [] | .absolute, [_] | .absolute, _ :: _ :: _ | .immediate, [] | .immediate, _ :: _ | .implied, _ =>
    simp [decodeOperand, operandBytes]

/-! ## Assembly lines -/

theorem disassemble_cons_eq_ok_iff {b : Byte} {bs rest : List Byte} {l : Asm} :
    disassemble (b :: bs) = .ok (l, rest) ↔
      l.instr = decode b ∧ decodeOperand (decode b).mode bs = .ok (l.operand, rest) := by
  obtain ⟨i, o⟩ := l
  rw [disassemble]
  cases decodeOperand (decode b).mode bs with
  | ok r => simp [Prod.ext_iff, eq_comm, and_assoc]
  | error e => simp

theorem disassemble_assemble {l : Asm} (rest : List Byte) (h : l.wf = true) :
    disassemble (assemble l ++ rest) = .ok (l, rest) := by
  obtain ⟨hinstr, hfits⟩ := Bool.and_eq_true_iff.1 h
  rw [assemble, List.cons_append, disassemble_cons_eq_ok_iff, decode_encode hinstr, decodeOperand_eq_ok_iff]
  exact ⟨rfl, hfits, rfl⟩

theorem assemble_of_disassemble {bs rest : List Byte} {l : Asm} (h : disassemble bs = .ok (l, rest)) :
    l.wf = true ∧ bs = assemble l ++ rest := by
  cases bs with
  | nil => cases h
  | cons b bs =>
    obtain ⟨hinstr, hoperand⟩ := disassemble_cons_eq_ok_iff.1 h
    rw [← hinstr] at hoperand
    obtain ⟨hfits, rfl⟩ := decodeOperand_eq_ok_iff.1 hoperand
    refine ⟨?_, ?_⟩
    · rw [Asm.wf, hfits, hinstr, decode_wf]; rfl
    · rw [assemble, hinstr, encode_decode, List.cons_append]

theorem disassemble_cons_eq_error_iff {b : Byte} {bs : List Byte} :
    disassemble (b :: bs) = .error .truncated ↔ bs.length < operandBytes (decode b).mode := by
  rw [← decodeOperand_eq_error_iff, disassemble]
  cases decodeOperand (decode b).mode bs <;> simp

/-! ## The Instruction Table (R75 to R77) -/

theorem tableWf_iff {itab : Byte → Byte} : tableWf itab = true ↔ ∀ b : Byte, fieldsInRange (itab b) = true := by
  rw [tableWf, List.all_eq_true]
  constructor
  · intro h b
    simpa using h b.toNat (List.mem_range.2 b.isLt)
  · exact fun h n _ => h (BitVec.ofNat 8 n)

/-- R78: where the byte is illegal the entry is 0x00, which is legal. -/
theorem fieldsInRange_itabDefault (b : Byte) : fieldsInRange (itabDefault b) = true := by
  rw [itabDefault]
  split
  · assumption
  · decide

/-- The default table sends a byte to the fields its instruction executes with (R76, R78). -/
theorem itabDefault_eq_combinedByte_decode (b : Byte) : itabDefault b =
    combinedByte (opBits (decode b).op) (modeBits (decode b).mode) (regBits (decode b).reg) := by
  rcases illegalByte_or_combinedByte b with h | ⟨op, m, r, rfl⟩
  · rw [Laws.itabDefault_illegal b h, decode_of_illegalByte h]
    exact (show 0x00 = combinedByte 0 0 0 by decide)
  · rw [Laws.itabDefault_combinedByte, decode_combinedByte, Instr.op_ofFields, Instr.mode_ofFields, Instr.reg_ofFields]

theorem length_filter_fieldsInRange :
    ((List.range 256).filter fun n => fieldsInRange (BitVec.ofNat 8 n)).length = 117 := by decide +kernel

theorem length_filter_not_fieldsInRange :
    ((List.range 256).filter fun n => !fieldsInRange (BitVec.ofNat 8 n)).length = 139 := by decide +kernel

end Sys2Proof

open Sys2Proof in
/-- Settles O9: the decoder undoes the encoder on the first byte, and the operand is read back from its own bytes. -/
theorem assembleThenDisassemble : Obligations.AssembleThenDisassemble := fun _ rest h => disassemble_assemble rest h

open Sys2Proof in
/-- Settles O10: what is consumed is what the line assembles to, and only the operand bytes can be missing. -/
theorem disassembleThenAssemble : Obligations.DisassembleThenAssemble := by
  refine ⟨fun bs rest l h => assemble_of_disassemble h, fun bs => ?_⟩
  cases bs with
  | nil => simp [disassemble]
  | cons b bs => simp [disassemble_cons_eq_error_iff]

open Sys2Proof in
/-- Settles O7: fourteen closed words. -/
theorem writtenWordsDecode : Obligations.WrittenWordsDecode := by
  unfold Obligations.WrittenWordsDecode
  decide

open Sys2Proof in
/-- Settles O8: the clauses are the laws of combined bytes, in the order they are proved above. -/
theorem defaultTableIsIdentityOnLegalBytes : Obligations.DefaultTableIsIdentityOnLegalBytes :=
  ⟨combinedByte_toNat, fieldsInRange_iff_ranges, fun _ => fieldsInRange_iff_exists, fun _ => rfl, decode_combinedByte,
    length_filter_fieldsInRange, length_filter_not_fieldsInRange⟩
end

section
/-! The resolver and the step (40_fetch_decode_execute.md rules R101 to R106, 30_encoding.md rule R77): which fields
resolving keeps, the equation of a step in terms of the decoded instruction, and the step at any parameters. -/

namespace Sys2Proof.Machine

/-! ## What resolving keeps (R103 to R105) -/

section
variable (p : Params) (m : Mode) (s : State) (r : Reg) (a : Addr)

@[simp] theorem afterResolve_pc : (afterResolve p m s).pc = s.pc + BitVec.ofNat 16 (operandBytes m) := by
  rw [afterResolve_eq]; rfl

@[simp] theorem afterResolve_hc : (afterResolve p m s).hc = operandBytes m := by rw [afterResolve_eq]; rfl
@[simp] theorem afterResolve_sr : (afterResolve p m s).sr = s.sr := by rw [afterResolve_eq]; rfl
@[simp] theorem afterResolve_sp : (afterResolve p m s).sp = s.sp := by rw [afterResolve_eq]; rfl
@[simp] theorem afterResolve_mem : (afterResolve p m s).mem = s.mem := by rw [afterResolve_eq]; rfl
@[simp] theorem afterResolve_cm : (afterResolve p m s).cm = s.cm := by rw [afterResolve_eq]; rfl
@[simp] theorem afterResolve_memRead : (afterResolve p m s).memRead a = s.memRead a := by rw [afterResolve_eq]; rfl

@[simp] theorem afterResolve_reg : (afterResolve p m s).reg r = s.reg r := by
  rw [afterResolve_eq, State.setHc_reg, State.setPc_reg]

end

/-! ## An instruction and a step as one handler call

No instruction stops (R170), so what `exec` and `step` give is a state; the two functions below name it. -/

/-- The state an instruction completes in, `s` being the state the fetch left. -/
def execState (i : Instr) (s : State) : State :=
  handlerOf params i.op i.reg (operandAddress params i.mode s) (afterResolve params i.mode s)

/-- The state a step completes in. -/
def stepState (s : State) : State := execState (decode (s.memRead s.pc)) (s.setPc (s.pc + 1))

theorem exec_eq_execState (i : Instr) (s : State) : exec i s = .next (execState i s) := exec_eq i s

theorem exec_eq_next_iff {i : Instr} {s t : State} : exec i s = .next t ↔ t = execState i s := by
  rw [exec_eq_execState, Host.Outcome.next.injEq]
  exact eq_comm

theorem step_eq_exec (s : State) : step s = exec (decode (s.memRead s.pc)) (s.setPc (s.pc + 1)) := rfl

theorem step_eq_stepState (s : State) : step s = .next (stepState s) := exec_eq_execState _ _

theorem step_eq_next_iff {s t : State} : step s = .next t ↔ t = stepState s := exec_eq_next_iff

/-- A run of the core is the iteration of its step. -/
theorem core_run_eq_iterate (n : Nat) (s : State) : Host.Core.run Sys2Proof.core n s = .next (stepState^[n] s) := by
  induction n generalizing s with
  | zero => rfl
  | succ n ih => rw [core_run_succ (step_eq_stepState s), ih, Function.iterate_succ_apply]

/-! ## The step at any parameters -/

/-- The fields the default table gives a raw byte are those of the instruction it decodes to. -/
theorem fieldsOf_itabDefault (b : Byte) :
    fieldsOf (itabDefault b) = some ((decode b).op, (decode b).mode, (decode b).reg) :=
  fieldsOf_eq_some_iff.2 (itabDefault_eq_combinedByte_decode b)

theorem paramsWf_iff {p : Params} : paramsWf p = true ↔ ∀ b : Byte, fieldsInRange (p.itab b) = true := tableWf_iff

theorem paramsWf_params : paramsWf params = true := paramsWf_iff.2 fieldsInRange_itabDefault

theorem stepWith_of_not_paramsWf {p : Params} (h : paramsWf p = false) (s : State) :
    stepWith p s = .refused .illFormedTable := by
  simp [stepWith, h]

theorem stepWith_of_fieldsOf {p : Params} (hp : paramsWf p = true) {s : State} {op : Op} {m : Mode} {r : Reg}
    (h : fieldsOf (p.itab (s.memRead s.pc)) = some (op, m, r)) :
    stepWith p s = .next (runForm p m (handlerOf p op r) (s.setPc (s.pc + 1))) := by
  simp [stepWith, hp, h]

/-- With a well-formed table a step is one handler call, of the fields of the entry of the byte at the PC. -/
theorem exists_stepWith_eq {p : Params} (hp : paramsWf p = true) (s : State) :
    ∃ (op : Op) (m : Mode) (r : Reg), fieldsOf (p.itab (s.memRead s.pc)) = some (op, m, r) ∧
      stepWith p s = .next (runForm p m (handlerOf p op r) (s.setPc (s.pc + 1))) := by
  obtain ⟨op, m, r, hentry⟩ := fieldsInRange_iff_exists.1 (paramsWf_iff.1 hp (s.memRead s.pc))
  have hfields := fieldsOf_eq_some_iff.2 hentry
  exact ⟨op, m, r, hfields, stepWith_of_fieldsOf hp hfields⟩

theorem stepWith_completes {p : Params} (hp : paramsWf p = true) (s : State) : ∃ t : State, stepWith p s = .next t := by
  obtain ⟨op, m, r, -, hstep⟩ := exists_stepWith_eq hp s
  exact ⟨_, hstep⟩

/-- Only a well-formed table lets a step complete, and then the step is a handler call. -/
theorem stepWith_eq_next {p : Params} {s t : State} (h : stepWith p s = .next t) :
    ∃ (op : Op) (m : Mode) (r : Reg), fieldsOf (p.itab (s.memRead s.pc)) = some (op, m, r) ∧
      t = runForm p m (handlerOf p op r) (s.setPc (s.pc + 1)) := by
  cases hp : paramsWf p with
  | false => rw [stepWith_of_not_paramsWf hp] at h; cases h
  | true =>
    obtain ⟨op, m, r, hfields, hstep⟩ := exists_stepWith_eq hp s
    rw [hstep, Host.Outcome.next.injEq] at h
    exact ⟨op, m, r, hfields, h.symm⟩

/-- The core is the parametric machine at the default parameters (log 1). -/
theorem stepWith_params (s : State) : stepWith params s = step s := by
  rw [stepWith_of_fieldsOf paramsWf_params (fieldsOf_itabDefault _), step_eq_exec, exec_eq]

/-! ## The line at the PC -/

/-- An operand address stands for the operand of a line: it is the address, it holds the value, or it is 0x0000. -/
def State.HoldsOperand (s : State) (ea : Addr) : Operand → Prop
  | .address a => ea = a
  | .value v => s.memRead ea = v
  | .nothing => ea = 0x0000

/-- The operand that the two bytes from the PC on hold is what the resolver finds (R79, R80, R103 to R105). -/
theorem State.holdsOperand_of_decodeOperand {m : Mode} {s : State} {o : Operand} {rest : List Byte}
    (h : decodeOperand m [s.memRead s.pc, s.memRead (s.pc + 1)] = .ok (o, rest)) :
    s.HoldsOperand (operandAddress params m s) o := by
  cases m with
  | absolute => cases h; exact operandAddress_absolute s
  | immediate => cases h; rfl
  | implied => cases h; rfl

/-! ## A placed word (log 3) -/

theorem Memory.read_place_of_ne {m : Memory} {a b : Addr} {bs : List Byte}
    (h : ∀ k : Nat, k < bs.length → a + BitVec.ofNat 16 k ≠ b) : (m.place a bs).read b.toNat = m.read b.toNat := by
  induction bs generalizing m a with
  | nil => rfl
  | cons v bs ih =>
    have hhead : a ≠ b := by simpa using h 0 (by simp)
    have htail : ∀ k : Nat, k < bs.length → a + 1 + BitVec.ofNat 16 k ≠ b := by
      intro k hk
      have hne := h (k + 1) (by simpa using hk)
      rwa [Nat.add_comm, BitVec.ofNat_add, ← BitVec.add_assoc] at hne
    rw [Memory.place, ih htail, Memory.read_write, if_neg (BitVec.toNat_inj.not.2 hhead)]

/-- The bytes placed after the first do not wrap back to it. -/
theorem Memory.read_place_head {m : Memory} {a : Addr} {v : Byte} {bs : List Byte} (h : bs.length < 65536) :
    (m.place a (v :: bs)).read a.toNat = v := by
  rw [Memory.place, Memory.read_place_of_ne, Memory.read_write, if_pos rfl]
  intro k hk
  bv_omega

theorem State.memRead_withFetchWord (s : State) (b : Byte) : (s.withFetchWord 8 b.toNat).memRead s.pc = b := by
  have hlow : BitVec.ofNat 8 (b.toNat % 2 ^ 8) = b := by
    rw [Nat.mod_eq_of_lt b.isLt, BitVec.ofNat_toNat, BitVec.setWidth_eq]
  rw [State.withFetchWord, State.memRead, tableWordBytes, hlow]
  exact Memory.read_place_head (by simp)

end Sys2Proof.Machine

open Sys2Proof Sys2Proof.Machine in
/-- Settles O11: well-formedness byte by byte, then refusal and completion of `stepWith`. -/
theorem wellFormedTableMakesStepTotal : Obligations.WellFormedTableMakesStepTotal := by
  refine ⟨fun p => ?_, paramsWf_params, fun p s h => stepWith_of_not_paramsWf h s, fun p s h => stepWith_completes h s⟩
  simp only [paramsWf_iff, fieldsInRange_iff_ranges]

open Sys2Proof Sys2Proof.Machine in
/-- Settles O25: the line's instruction is the decoding of the first byte, its operand is read from the two after it. -/
theorem stepRunsTheLineAtPc : Obligations.StepRunsTheLineAtPc := by
  intro s l rest h
  obtain ⟨hinstr, hoperand⟩ := disassemble_cons_eq_ok_iff.1 h
  have htwo : s.pc + 2 = s.pc + 1 + 1 := by bv_omega
  rw [htwo, ← hinstr] at hoperand
  refine ⟨by rw [step_eq_exec, hinstr], ?_⟩
  have hholds := State.holdsOperand_of_decodeOperand (s := s.setPc (s.pc + 1)) hoperand
  cases ho : l.operand <;> rw [ho] at hholds <;> exact hholds

open Sys2Proof Sys2Proof.Machine in
/-- Settles O26: the byte at the PC is the placed one. -/
theorem placedWordRunsNext : Obligations.PlacedWordRunsNext := by
  intro s b
  refine ⟨?_, rfl⟩
  rw [step_eq_exec, show (s.withFetchWord 8 b.toNat).pc = s.pc from rfl, State.memRead_withFetchWord]

open Sys2Proof Sys2Proof.Machine in
/-- Settles O27: the three fields are those of the decoded instruction, whose meaning runs them. -/
theorem stepFollowsTheFivePhases : Obligations.StepFollowsTheFivePhases := by
  intro s
  obtain ⟨hop, hmode, hreg⟩ := eq_combinedByte_iff.1 (itabDefault_eq_combinedByte_decode (s.memRead s.pc))
  refine ⟨_, _, _, ?_, ?_, ?_, (step_eq_exec s).trans (exec_eq _ _), (stepWith_params s).symm⟩
  · rw [← hop, opField_toNat]
  · rw [← hreg, regField_toNat]
  · rw [← hmode, modeField_toNat]

open Sys2Proof Sys2Proof.Machine in
/-- Settles O29: by the definition of each resolver; the Absolute sum is a concatenation at both widths. -/
theorem resolverGivesOperandAddress : Obligations.ResolverGivesOperandAddress := by
  intro p s
  refine ⟨?_, rfl, rfl, rfl, rfl⟩
  cases hwidth : p.absWidth with
  | full => simpa only [resolve, hwidth] using append_eq_shift_add _ _
  | low => simpa [resolve, hwidth] using append_eq_shift_add 0x00 (s.memRead s.pc)

open Sys2Proof Sys2Proof.Machine in
/-- Settles O36: the three displacements, and the two branches of the handler. -/
theorem displacementFollowsJrel : Obligations.DisplacementFollowsJrel := by
  intro p f ea s
  refine ⟨fun h => ?zext, fun h => ?sext, fun h => ?address, rfl, fun h => ?taken, fun h => ?notTaken⟩
  case zext => rw [displacement, h, BitVec.toNat_setWidth_of_le (by decide)]
  case sext => rw [displacement, h, BitVec.toInt_signExtend_of_le (by decide)]
  case address => rw [displacement, h]
  case taken => rw [jumpIfHandler, if_pos h]; rfl
  case notTaken => rw [jumpIfHandler, h]; rfl
end

section
/-! Memory as data (20_memory.md rules R40, R57; log 16): what a memory made from an image reads as, and that a
canonical memory is determined by what it reads as. -/

namespace Sys2Proof.Machine

/-! ## Canonical lists of cells -/

theorem cellsRising_iff {cs : List Host.Cell} :
    cellsRising cs = true ↔ cs.Pairwise (·.1 < ·.1) ∧ ∀ c ∈ cs, c.1 < Config.memSize := by
  induction cs with
  | nil => simp [cellsRising]
  | cons c cs ih =>
    rw [cellsRising_cons, ih, List.pairwise_cons, List.forall_mem_cons]
    tauto

theorem mem_of_lookupCell {k : Nat} {v : Byte} {cs : List Host.Cell} (h : lookupCell k cs = some v) : (k, v) ∈ cs := by
  induction cs with
  | nil => cases h
  | cons c cs ih =>
    rw [lookupCell] at h
    split at h
    · next hk => obtain rfl := Option.some.inj h; exact hk ▸ List.mem_cons_self
    · exact List.mem_cons_of_mem _ (ih h)

/-- In a rising list an address is listed once, so looking it up finds its cell. -/
theorem lookupCell_eq_some_iff {cs : List Host.Cell} (hcs : cellsRising cs = true) {k : Nat} {v : Byte} :
    lookupCell k cs = some v ↔ (k, v) ∈ cs := by
  refine ⟨mem_of_lookupCell, fun h => ?_⟩
  induction cs with
  | nil => cases h
  | cons c cs ih =>
    obtain ⟨-, habove, hrest⟩ := (cellsRising_cons c cs).1 hcs
    rw [lookupCell]
    rcases List.mem_cons.1 h with rfl | hmem
    · exact if_pos rfl
    · rw [if_neg (Nat.ne_of_lt (habove _ hmem)), ih hrest hmem]

/-- Rising lists with the same cells are the same list. -/
theorem cellsRising_ext {cs ds : List Host.Cell} (hcs : cellsRising cs = true) (hds : cellsRising ds = true)
    (h : ∀ c : Host.Cell, c ∈ cs ↔ c ∈ ds) : cs = ds := by
  obtain ⟨hcs, -⟩ := cellsRising_iff.1 hcs
  obtain ⟨hds, -⟩ := cellsRising_iff.1 hds
  have hnodup {es : List Host.Cell} (hes : es.Pairwise (·.1 < ·.1)) : es.Nodup :=
    hes.imp fun {a b} hlt (heq : a = b) => Nat.ne_of_lt hlt (congrArg Prod.fst heq)
  have hperm : cs.Perm ds := (List.perm_ext_iff_of_nodup (hnodup hcs) (hnodup hds)).2 h
  exact hperm.eq_of_pairwise (fun a b _ _ hab hba => absurd hab (Nat.lt_asymm hba)) hcs hds

theorem Memory.wf_iff {m : Memory} : m.wf = true ↔ cellsRising m = true ∧ ∀ c ∈ m, c.2 ≠ Memory.unlisted := by
  simp [Memory.wf]

/-- A canonical memory lists exactly the addresses that do not read as an unlisted one, with the bytes they read as. -/
theorem Memory.mem_iff_of_wf {m : Memory} (h : m.wf = true) (c : Host.Cell) :
    c ∈ m ↔ c.1 < Config.memSize ∧ m.read c.1 = c.2 ∧ c.2 ≠ Memory.unlisted := by
  obtain ⟨hrising, hlisted⟩ := Memory.wf_iff.1 h
  rw [Memory.read]
  constructor
  · intro hc
    refine ⟨(cellsRising_iff.1 hrising).2 c hc, ?_, hlisted c hc⟩
    rw [(lookupCell_eq_some_iff hrising).2 hc, Option.getD_some]
  · rintro ⟨-, hread, hne⟩
    cases hlookup : lookupCell c.1 m with
    | none => rw [hlookup] at hread; exact absurd hread.symm hne
    | some v =>
      obtain rfl : v = c.2 := by rwa [hlookup, Option.getD_some] at hread
      exact mem_of_lookupCell hlookup

theorem Memory.eq_of_read_eq {m m' : Memory} (h : m.wf = true) (h' : m'.wf = true)
    (hread : ∀ a : Addr, m.read a.toNat = m'.read a.toNat) : m = m' := by
  refine cellsRising_ext (Memory.wf_iff.1 h).1 (Memory.wf_iff.1 h').1 fun c => ?_
  rw [Memory.mem_iff_of_wf h, Memory.mem_iff_of_wf h']
  refine and_congr_right fun hlt => ?_
  have haddr := hread (BitVec.ofNat 16 c.1)
  rw [BitVec.toNat_ofNat, Nat.mod_eq_of_lt (show c.1 < 2 ^ 16 from hlt)] at haddr
  rw [haddr]

/-! ## Images (R57) -/

@[simp] theorem Memory.read_nil (k : Nat) : Memory.read [] k = Memory.unlisted := rfl

theorem Memory.read_cons (a k : Nat) (v : Byte) (m : Memory) :
    Memory.read ((a, v) :: m) k = if a = k then v else m.read k := by
  rw [Memory.read, lookupCell]
  split <;> rfl

/-- Byte `k` of a list is read `k` addresses above the first, and nothing is listed below the first. -/
theorem Memory.read_ofBytes (a k : Nat) (bs : List Byte) :
    (Memory.ofBytes a bs).read k = if a ≤ k then (bs[k - a]?).getD Memory.unlisted else Memory.unlisted := by
  induction bs generalizing a with
  | nil => simp [Memory.ofBytes]
  | cons b bs ih =>
    have hcons : (Memory.ofBytes a (b :: bs)).read k =
        if a = k then b else (Memory.ofBytes (a + 1) bs).read k := by
      rw [Memory.ofBytes]
      split
      · next hb =>
        split
        · next hak => rw [ih, if_neg (by omega), hb]
        · rfl
      · exact Memory.read_cons a k b _
    rw [hcons, ih]
    rcases Nat.lt_trichotomy a k with hlt | rfl | hgt
    · obtain ⟨j, rfl⟩ := Nat.exists_eq_add_of_lt hlt
      have hj : a + j + 1 - a = j + 1 := by omega
      have hj' : a + j + 1 - (a + 1) = j := by omega
      rw [if_neg (by omega), if_pos (by omega), if_pos (by omega), hj, hj', List.getElem?_cons_succ]
    · simp
    · rw [if_neg (by omega), if_neg (by omega), if_neg (by omega)]

@[simp] theorem Memory.read_ofImage (img : Image) (a : Addr) : (Memory.ofImage img).read a.toNat = img.byte a := by
  have hlt : a.toNat < img.toList.length := Vector.length_toList.symm ▸ a.isLt
  rw [Memory.ofImage, Memory.read_ofBytes, if_pos (Nat.zero_le _), Nat.sub_zero, List.getElem?_eq_getElem hlt,
    Option.getD_some]
  exact Vector.getElem_toList _

@[simp] theorem Memory.byte_toImage (m : Memory) (a : Addr) : m.toImage.byte a = m.read a.toNat :=
  Vector.getElem_ofFn _

theorem Image.ext_byte {img img' : Image} (h : ∀ a : Addr, img.byte a = img'.byte a) : img = img' := by
  refine Vector.ext fun k hk => ?_
  have hbyte := h (BitVec.ofNat 16 k)
  simp only [Image.byte, BitVec.toNat_ofNat, Nat.mod_eq_of_lt (show k < 2 ^ 16 from hk)] at hbyte
  exact hbyte

theorem Memory.toImage_ofImage (img : Image) : (Memory.ofImage img).toImage = img :=
  Image.ext_byte fun a => by rw [Memory.byte_toImage, Memory.read_ofImage]

/-- The image of zeros is the memory that lists nothing (log 2). -/
theorem Memory.ofImage_replicate_zero : Memory.ofImage (Vector.replicate Config.memSize 0x00) = [] := by
  refine Memory.eq_of_read_eq (Memory.ofImage_wf _) rfl fun a => ?_
  rw [Memory.read_ofImage]
  exact Vector.getElem_replicate _

end Sys2Proof.Machine

open Sys2Proof.Machine in
/-- Settles O20: both lists hold the same cells, those of the addresses that read as a listed byte. -/
theorem canonicalMemoriesReadingAlikeAreEqual : Obligations.CanonicalMemoriesReadingAlikeAreEqual :=
  fun _ _ => Memory.eq_of_read_eq

open Sys2Proof.Machine in
/-- Settles O4: a load is read back byte by byte, and two images with the same bytes are the same. -/
theorem bulkLoadAndSaveAreInverse : Obligations.BulkLoadAndSaveAreInverse := by
  have hmemory (e : Emulator) (img : Image) : (e.bulkLoad img).memory = Memory.ofImage img := by cases e <;> rfl
  refine ⟨fun e img => ?_, fun e img a => ?_, fun e a => ?_, fun s img => ⟨_, rfl⟩, fun mem hc cm img => ⟨_, rfl⟩⟩
  · rw [Emulator.saveImage, hmemory, Memory.toImage_ofImage]
  · rw [Emulator.memRead, hmemory, Memory.read_ofImage]
  · rw [Emulator.memRead, hmemory, Memory.read_ofImage, Emulator.saveImage, Memory.byte_toImage, Emulator.memRead]
end

section
/-! Construction, the first Reset and `run` (70_reset_and_hazards.md rules R190, R191; 40_fetch_decode_execute.md rule
R100). -/

namespace Sys2Proof.Machine

/-! ## Construction and the first Reset -/

theorem Emulator.construct_of_paramsWf {p : Params} (hp : paramsWf p = true) (img : Image) :
    Emulator.construct p img = .next (.constructed (Memory.ofImage img) 0 []) := if_pos hp

/-- A completed construction holds the image, a zero counter and an empty Change Map (R31, R191). -/
theorem Emulator.construct_eq_next {p : Params} {img : Image} {e : Emulator} (h : Emulator.construct p img = .next e) :
    e = .constructed (Memory.ofImage img) 0 [] := by
  cases hp : paramsWf p with
  | false => rw [Emulator.construct, hp] at h; cases h
  | true =>
    rw [Emulator.construct_of_paramsWf hp, Host.Outcome.next.injEq] at h
    exact h.symm

/-- The first Reset writes every register and keeps memory, counter and Change Map (R190, R195). -/
theorem Emulator.reset_constructed (mem : Memory) (hc : Nat) (cm : ChangeMap) :
    (Emulator.constructed mem hc cm).reset = .ready { State.reset with
      pc := mem.read 0xFFFD ++ mem.read 0xFFFC, mem := mem, hc := hc, cm := cm } := rfl

/-! ## Runs (R100) -/

@[simp] theorem runWith_zero (p : Params) (s : State) : runWith p 0 s = .next s := rfl

theorem runWith_succ {p : Params} {s t : State} (h : stepWith p s = .next t) (n : Nat) :
    runWith p (n + 1) s = runWith p n t := by
  rw [runWith, h]

theorem runWith_add {p : Params} {a : Nat} {s t : State} (h : runWith p a s = .next t) (b : Nat) :
    runWith p (a + b) s = runWith p b t := by
  induction a generalizing s with
  | zero => obtain rfl := Host.Outcome.next.inj h; rw [Nat.zero_add]
  | succ a ih =>
    cases hstep : stepWith p s with
    | next u =>
      rw [runWith_succ hstep] at h
      rw [Nat.add_right_comm, runWith_succ hstep, ih h]
    | fault r => rw [runWith, hstep] at h; cases h
    | refused r => rw [runWith, hstep] at h; cases h

theorem runWith_completes {p : Params} (hp : paramsWf p = true) (n : Nat) (s : State) :
    ∃ t : State, runWith p n s = .next t := by
  induction n generalizing s with
  | zero => exact ⟨s, rfl⟩
  | succ n ih =>
    obtain ⟨u, hu⟩ := stepWith_completes hp s
    obtain ⟨t, ht⟩ := ih u
    exact ⟨t, (runWith_succ hu n).trans ht⟩

/-- At the default parameters a run is a run of the core (log 1). -/
theorem runWith_params (n : Nat) (s : State) : runWith params n s = Host.Core.run Sys2Proof.core n s := by
  induction n generalizing s with
  | zero => rfl
  | succ n ih =>
    obtain ⟨t, ht⟩ := step_completes s
    rw [runWith_succ ((stepWith_params s).trans ht), core_run_succ ht, ih]

theorem Emulator.run_ready_eq_next_iff {p : Params} {n : Nat} {s t : State} :
    Emulator.run p n (.ready s) = .next (.ready t) ↔ runWith p n s = .next t := by
  rw [Emulator.run]
  cases runWith p n s <;> simp

end Sys2Proof.Machine

open Sys2Proof.Machine in
/-- Settles O2: construction holds the image, and the first Reset reads the vector from it. -/
theorem powerOnRunsOnlyAfterReset : Obligations.PowerOnRunsOnlyAfterReset := by
  intro p img n hp
  refine ⟨_, Emulator.construct_of_paramsWf hp img, Memory.read_ofImage img, rfl, _, Emulator.reset_constructed _ _ _,
    rfl, rfl, rfl, rfl, rfl, ?_, Memory.read_ofImage img, rfl, rfl⟩
  exact congrArg₂ (· ++ ·) (Memory.read_ofImage img 0xFFFD) (Memory.read_ofImage img 0xFFFC)

open Sys2Proof.Machine in
/-- Settles O3: the image of zeros lists nothing, and its reset vector reads 0x0000. -/
theorem resetStateIsFirstResetOfZeroImage : Obligations.ResetStateIsFirstResetOfZeroImage := by
  refine ⟨_, Emulator.construct_of_paramsWf paramsWf_params _, ?_⟩
  rw [Memory.ofImage_replicate_zero, Emulator.reset_constructed]
  rfl

open Sys2Proof.Machine in
/-- Settles O5: runs compose, a run of `n + 1` being a run of `n` and then of 1. -/
theorem runPerformsExactlySteps : Obligations.RunPerformsExactlySteps := by
  refine ⟨fun _ _ => rfl, fun p s t a b h => ?compose, fun p s n hp => ?succ, fun _ _ _ _ _ => rfl, fun s n => ?core⟩
  case compose =>
    rw [Emulator.run, Emulator.run, runWith_add (Emulator.run_ready_eq_next_iff.1 h)]
  case succ =>
    obtain ⟨t, ht⟩ := runWith_completes hp n s
    obtain ⟨u, hu⟩ := stepWith_completes hp t
    refine ⟨t, u, Emulator.run_ready_eq_next_iff.2 ht, hu, Emulator.run_ready_eq_next_iff.2 ?_⟩
    rw [runWith_add ht, runWith_succ hu, runWith_zero]
  case core =>
    obtain ⟨t, ht⟩ := runWith_completes paramsWf_params n s
    exact ⟨t, (runWith_params n s).symm.trans ht, Emulator.run_ready_eq_next_iff.2 ht⟩
end

section
/-! The handlers (40_fetch_decode_execute.md rule R106), each as updates of the state it starts from, and what a handler
can do to each part of that state. -/

namespace Sys2Proof.Machine

/-! ## One equation per mnemonic -/

section
variable (p : Params) (r : Reg) (ea : Addr) (s : State)

@[simp] theorem handlerOf_brk : handlerOf p .brk r ea s = s.takeTrap := rfl

@[simp] theorem handlerOf_ld : handlerOf p .ld r ea s =
    (s.setSr (setNZ p.negMode (s.memRead ea) s.sr)).setReg r (s.memRead ea) := rfl

@[simp] theorem handlerOf_st : handlerOf p .st r ea s = s.memWrite ea (s.reg r) := rfl

@[simp] theorem handlerOf_add : handlerOf p .add r ea s =
    (s.setSr (setCZ (addSum (s.memRead ea) (s.reg r) (queryFlag .carry s.sr)) s.sr)).setReg r
      ((addSum (s.memRead ea) (s.reg r) (queryFlag .carry s.sr)).setWidth 8) := rfl

@[simp] theorem handlerOf_jmp : handlerOf p .jmp r ea s = s.setPc ea := rfl

/-- A conditional jump moves the PC, to where it is when the flag is clear. -/
theorem jumpIfHandler_eq (f : Flag) : jumpIfHandler f p ea s =
    s.setPc (if queryFlag f s.sr then s.pc + displacement p ea s else s.pc) := by
  rw [jumpIfHandler]
  split <;> rfl

@[simp] theorem handlerOf_jpc : handlerOf p .jpc r ea s =
    s.setPc (if queryFlag .carry s.sr then s.pc + displacement p ea s else s.pc) := jumpIfHandler_eq p ea s .carry

@[simp] theorem handlerOf_jpz : handlerOf p .jpz r ea s =
    s.setPc (if queryFlag .zero s.sr then s.pc + displacement p ea s else s.pc) := jumpIfHandler_eq p ea s .zero

@[simp] theorem handlerOf_jpn : handlerOf p .jpn r ea s =
    s.setPc (if queryFlag .negative s.sr then s.pc + displacement p ea s else s.pc) := jumpIfHandler_eq p ea s .negative

@[simp] theorem handlerOf_ph : handlerOf p .ph r ea s = s.push (s.reg r) := rfl

@[simp] theorem handlerOf_pl : handlerOf p .pl r ea s =
    ((s.setSp (s.sp + 1)).setSr (setNZ p.negMode (s.memRead (stackAddr (s.sp + 1))) s.sr)).setReg r
      (s.memRead (stackAddr (s.sp + 1))) := by
  cases r <;> rfl

@[simp] theorem handlerOf_and : handlerOf p .and r ea s =
    (s.setSr (setNZ p.negMode (s.reg r &&& s.memRead ea) s.sr)).setReg r (s.reg r &&& s.memRead ea) := rfl

@[simp] theorem handlerOf_xor : handlerOf p .xor r ea s =
    (s.setSr (setNZ p.negMode (s.reg r ^^^ s.memRead ea) s.sr)).setReg r (s.reg r ^^^ s.memRead ea) := rfl

@[simp] theorem handlerOf_clc : handlerOf p .clc r ea s = s.setSr (clearFlag .carry s.sr) := rfl

end

/-! ## What a handler can do -/

section
variable (p : Params) (op : Op) (r : Reg) (ea : Addr) (s : State)

/-- The highlight counter is the resolver's alone (R24). -/
@[simp] theorem handlerOf_hc : (handlerOf p op r ea s).hc = s.hc := by cases op <;> simp

/-- SetNZ, ADD's update, a cleared C and a set I are the only ways SR is written (R16 to R22). -/
theorem handlerOf_sr_cases :
    (op ∈ [Op.ld, .pl, .and, .xor] ∧ ∃ v : Byte, (handlerOf p op r ea s).sr = setNZ p.negMode v s.sr) ∨
    (op = .add ∧ ∃ sum : BitVec 9, (handlerOf p op r ea s).sr = setCZ sum s.sr) ∨
    (op = .clc ∧ (handlerOf p op r ea s).sr = clearFlag .carry s.sr) ∨
    (op = .brk ∧ (handlerOf p op r ea s).sr = setFlag .interrupt s.sr) ∨
    (op ≠ .brk ∧ (handlerOf p op r ea s).sr = s.sr) := by
  cases op with
  | ld | pl | and | xor => exact .inl ⟨by simp, _, by simp; rfl⟩
  | add => exact .inr (.inl ⟨rfl, _, by simp; rfl⟩)
  | clc => exact .inr (.inr (.inl ⟨rfl, by simp⟩))
  | brk => exact .inr (.inr (.inr (.inl ⟨rfl, by simp⟩)))
  | st | jmp | jpc | jpz | jpn | ph => exact .inr (.inr (.inr (.inr ⟨by simp, by simp⟩)))

variable {op}

/-- A register is written only where it is selected, and only by the instructions with a result (R10). -/
theorem handlerOf_reg_of_not_written {q : Reg} (h : q ≠ r ∨ op ∉ [Op.ld, .add, .pl, .and, .xor]) :
    (handlerOf p op r ea s).reg q = s.reg q := by
  cases op with
  | ld | add | pl | and | xor =>
    obtain hne : q ≠ r := by simpa using h
    simp [State.reg_setReg, hne]
  | brk | st | jmp | jpc | jpz | jpn | ph | clc => simp

end

end Sys2Proof.Machine
end

section
/-! The Change Map and memory along a run (10_state.md rule R25), the part of the state that no instruction reads (R24,
R25, R182), and the invariant. -/

namespace Sys2Proof.Machine

/-! ## Change tracking along a run -/

theorem iterate_stepState_recordsChanges (n : Nat) (s : State) : RecordsChanges s (stepState^[n] s) := by
  induction n generalizing s with
  | zero => exact .of_mem_cm_eq rfl rfl
  | succ n ih => exact (step_recordsChanges (step_eq_stepState s)).trans (ih _)

/-- Where changes are recorded, the memory that map and memory give back is the same before and after. -/
theorem RecordsChanges.tracksSince {s t : State} (h : RecordsChanges s t) {orig : Memory} (hs : TracksSince orig s) :
    TracksSince orig t := by
  intro a
  rw [← hs a]
  cases hold : lookupCell a.toNat s.cm with
  | some v => rw [h.keeps _ v hold]; rfl
  | none =>
    rcases h.inserts a hold with hnew | hnew
    · have hbyte : t.memRead a = s.memRead a := by_contra fun hne => h.covers a hne hnew
      rw [hnew, hbyte]
    · rw [hnew]; rfl

/-! ## Two states that differ in counter and Change Map -/

theorem afterResolve_programView (p : Params) (m : Mode) (s : State) :
    (afterResolve p m s.programView).programView = (afterResolve p m s).programView := by cases m <;> rfl

theorem operandAddress_programView (p : Params) (m : Mode) (s : State) :
    operandAddress p m s.programView = operandAddress p m s := by cases m <;> rfl

/-- What a handler leaves for the program depends on what the program can see alone. -/
theorem handlerOf_programView (p : Params) (op : Op) (r : Reg) (ea : Addr) (s : State) :
    (handlerOf p op r ea s.programView).programView = (handlerOf p op r ea s).programView := by
  cases op with
  | ld | add | pl | and | xor => cases r <;> rfl
  | st | ph => cases r <;> rfl
  | brk | jmp | clc => rfl
  | jpc | jpz | jpn => simp only [handlerOf_jpc, handlerOf_jpz, handlerOf_jpn]; rfl

theorem execState_programView (i : Instr) (s : State) :
    (execState i s.programView).programView = (execState i s).programView := by
  rw [execState, operandAddress_programView, ← handlerOf_programView, afterResolve_programView, handlerOf_programView,
    execState]

theorem stepState_programView (s : State) : (stepState s.programView).programView = (stepState s).programView :=
  execState_programView (decode (s.memRead s.pc)) (s.setPc (s.pc + 1))

theorem iterate_stepState_programView {s s' : State} (h : s'.programView = s.programView) (n : Nat) :
    (stepState^[n] s').programView = (stepState^[n] s).programView := by
  induction n generalizing s s' with
  | zero => exact h
  | succ n ih =>
    refine ih ?_
    rw [← stepState_programView s', h, stepState_programView]

/-- The counter after an instruction is its operand byte count (R24). -/
@[simp] theorem execState_hc (i : Instr) (s : State) : (execState i s).hc = operandBytes i.mode := by
  rw [execState, handlerOf_hc, afterResolve_hc]

theorem stepState_hc (s : State) : (stepState s).hc = operandBytes (decode (s.memRead s.pc)).mode := execState_hc _ _

theorem stepState_hc_congr {s s' : State} (h : s'.programView = s.programView) :
    (stepState s').hc = (stepState s).hc := by
  have hpc : s'.pc = s.pc := show s'.programView.pc = s.programView.pc by rw [h]
  have hmem : s'.mem = s.mem := show s'.programView.mem = s.programView.mem by rw [h]
  rw [stepState_hc, stepState_hc, State.memRead, State.memRead, hpc, hmem]

/-! ## The invariant -/

theorem State.inv_iff {s : State} :
    s.inv = true ↔ s.mem.wf = true ∧ s.cm.wf = true ∧ s.hc ≤ 2 ∧ s.sr &&& 0x78 = 0 := by
  simp [State.inv, and_assoc]

theorem operandBytes_le_two (m : Mode) : operandBytes m ≤ 2 := by cases m <;> decide

theorem and_eq_and_of_getLsbD_eq {a b : Byte} (h : ∀ k : Nat, 3 ≤ k → k ≤ 6 → a.getLsbD k = b.getLsbD k) :
    a &&& 0x78 = b &&& 0x78 := by
  refine BitVec.eq_of_getLsbD_eq fun k hk => ?_
  rw [BitVec.getLsbD_and, BitVec.getLsbD_and]
  have hmask : (0x78 : Byte).getLsbD k = true → 3 ≤ k ∧ k ≤ 6 := by revert hk; revert k; decide
  cases hbit : (0x78 : Byte).getLsbD k with
  | false => simp
  | true => rw [h k (hmask hbit).1 (hmask hbit).2]

/-- B, V and bits 3 and 5 are out of reach of every flag update (R20, R21, R22). -/
theorem handlerOf_sr_and (p : Params) (op : Op) (r : Reg) (ea : Addr) (s : State) :
    (handlerOf p op r ea s).sr &&& 0x78 = s.sr &&& 0x78 := by
  refine and_eq_and_of_getLsbD_eq fun k hlo hhi => ?_
  rcases handlerOf_sr_cases p op r ea s with ⟨-, v, h⟩ | ⟨-, sum, h⟩ | ⟨-, h⟩ | ⟨-, h⟩ | ⟨-, h⟩ <;> rw [h]
  · rw [getLsbD_setNZ, if_neg (by omega), if_neg (by omega)]
  · rw [getLsbD_setCZ, if_neg (by omega), if_neg (by omega)]
  · have hk : k ≠ flagBit .carry := by simp only [flagBit]; omega
    simp [getLsbD_clearFlag, hk]
  · have hk : k ≠ flagBit .interrupt := by simp only [flagBit]; omega
    simp [getLsbD_setFlag, hk]

/-- The handlers that store write through `memWrite`, which keeps the canonical forms. -/
theorem handlerOf_mem_cm_wf (p : Params) (op : Op) (r : Reg) (ea : Addr) {s : State} (hmem : s.mem.wf = true)
    (hcm : s.cm.wf = true) : (handlerOf p op r ea s).mem.wf = true ∧ (handlerOf p op r ea s).cm.wf = true := by
  by_cases hop : op ∈ [Op.brk, .st, .ph]
  · simp only [List.mem_cons, List.not_mem_nil, or_false] at hop
    rcases hop with rfl | rfl | rfl
    · exact ⟨State.takeTrap_mem_wf hmem, State.takeTrap_cm_wf hcm⟩
    · exact ⟨State.memWrite_mem_wf ea (s.reg r) hmem, State.memWrite_cm_wf ea (s.reg r) hcm⟩
    · exact ⟨State.memWrite_mem_wf _ (s.reg r) hmem, State.memWrite_cm_wf _ (s.reg r) hcm⟩
  · obtain ⟨hmem', hcm'⟩ := handlerOf_mem_cm_of_not_store p hop r ea s
    rw [hmem', hcm']
    exact ⟨hmem, hcm⟩

theorem execState_inv (i : Instr) {s : State} (h : s.inv = true) : (execState i s).inv = true := by
  obtain ⟨hmem, hcm, -, hsr⟩ := State.inv_iff.1 h
  obtain ⟨hmem', hcm'⟩ := handlerOf_mem_cm_wf params i.op i.reg (operandAddress params i.mode s)
    (s := afterResolve params i.mode s) (by rwa [afterResolve_mem]) (by rwa [afterResolve_cm])
  refine State.inv_iff.2 ⟨hmem', hcm', ?_, ?_⟩
  · rw [execState_hc]
    exact operandBytes_le_two i.mode
  · rw [execState, handlerOf_sr_and, afterResolve_sr, hsr]

/-- Fetch moves the PC, of which the invariant says nothing. -/
theorem stepState_inv {s : State} (h : s.inv = true) : (stepState s).inv = true :=
  execState_inv _ (s := s.setPc (s.pc + 1)) h

theorem hostReset_inv {s : State} (h : s.inv = true) : s.hostReset.inv = true := by
  obtain ⟨hmem, hcm, hhc, -⟩ := State.inv_iff.1 h
  rw [State.inv_iff, State.hostReset_mem, State.hostReset_cm, State.hostReset_hc, State.hostReset_sr]
  exact ⟨hmem, hcm, hhc, rfl⟩

end Sys2Proof.Machine

open Sys2Proof.Machine in
/-- Settles O19: every step records its changes, which keeps what memory and map give back; the first Reset starts with
the image and an empty map. -/
theorem changeMapRecoversOriginalMemory : Obligations.ChangeMapRecoversOriginalMemory := by
  refine ⟨fun orig s t n hs h => ?_, fun p img e he => ?_⟩
  · obtain rfl : stepState^[n] s = t := Host.Outcome.next.inj ((core_run_eq_iterate n s).symm.trans h)
    exact (iterate_stepState_recordsChanges n s).tracksSince hs
  · rw [Emulator.construct_eq_next he, Emulator.reset_constructed]
    exact ⟨_, rfl, fun _ => rfl⟩

open Sys2Proof.Machine in
/-- Settles O46: runs from states that the program cannot tell apart stay so, and the counter is set from what the
program can see at the last step. -/
theorem observationStateIsInvisible : Obligations.ObservationStateIsInvisible := by
  refine ⟨fun s h c n => ?_, fun s t hstep => ?_⟩
  · have hview (k : Nat) := iterate_stepState_programView (s := s) (s' := { s with hc := h, cm := c }) rfl k
    refine ⟨_, _, core_run_eq_iterate n s, core_run_eq_iterate n _, hview n, fun hn => ?_⟩
    obtain ⟨k, rfl⟩ := Nat.exists_eq_succ_of_ne_zero hn.ne'
    rw [Function.iterate_succ_apply', Function.iterate_succ_apply', stepState_hc_congr (hview k)]
  · rw [step_eq_next_iff.1 hstep, stepState_hc]

open Sys2Proof.Machine in
/-- Settles O47: every part of the invariant is closed at the state after Reset. -/
theorem resetStateMeetsInvariant : Obligations.ResetStateMeetsInvariant := State.inv_iff.2 (by decide)

open Sys2Proof.Machine in
/-- Settles O48: a step, a Reset and a load each keep the four parts of the invariant. -/
theorem everyStepKeepsInvariant : Obligations.EveryStepKeepsInvariant := by
  refine ⟨fun s t hs h => ?step, fun s t hs h => ?reset, fun s t img hs h => ?load⟩
  case step => exact step_eq_next_iff.1 h ▸ stepState_inv hs
  case reset => exact Emulator.ready.inj h ▸ hostReset_inv hs
  case load =>
    obtain ⟨-, hcm, hhc, hsr⟩ := State.inv_iff.1 hs
    exact Emulator.ready.inj h ▸ State.inv_iff.2 ⟨Memory.ofImage_wf img, hcm, hhc, hsr⟩
end

section
/-! Flag updates as masks (10_state.md rules R15, R30; 43_add.md rule R130), and which of them commute. -/

namespace Sys2Proof.Machine

/-- SetNZ at BIT7 keeps bits 0 and 2 to 6, takes bit 7 of the value, and sets bit 1 for the value 0 (R30). -/
theorem setNZ_bit7 (v sr : Byte) :
    setNZ .bit7 v sr = (sr &&& 0x7D) ||| (v &&& 0x80) ||| (if v = 0x00 then 0x02 else 0x00) := by
  refine BitVec.eq_of_getLsbD_eq fun k hk => ?_
  rw [getLsbD_setNZ]
  by_cases hv : v = 0x00
  · subst hv; interval_cases k <;> simp
  · rw [if_neg hv, beq_eq_false_iff_ne.2 hv]
    interval_cases k <;> simp

/-- SetNZ at NEVER clears bit 7 (R30). -/
theorem setNZ_never (v sr : Byte) :
    setNZ .never v sr = (sr &&& 0x7D) ||| (if v = 0x00 then 0x02 else 0x00) := by
  refine BitVec.eq_of_getLsbD_eq fun k hk => ?_
  rw [getLsbD_setNZ]
  by_cases hv : v = 0x00
  · subst hv; interval_cases k <;> simp
  · rw [if_neg hv, beq_eq_false_iff_ne.2 hv]
    interval_cases k <;> simp

/-- ADD's update keeps bits 2 to 7 (R130). -/
theorem setCZ_eq (sum : BitVec 9) (sr : Byte) :
    setCZ sum sr = (sr &&& 0xFC) ||| (if 0xFF < sum.toNat then 0x01 else 0x00) |||
      (if sum.toNat % 256 = 0 then 0x02 else 0x00) := by
  have hcarry : sum.getLsbD 8 = decide (0xFF < sum.toNat) := by revert sum; decide +kernel
  have hzero : (sum.setWidth 8 == 0) = decide (sum.toNat % 256 = 0) := by revert sum; decide +kernel
  refine BitVec.eq_of_getLsbD_eq fun k hk => ?_
  rw [getLsbD_setCZ, hcarry, hzero]
  by_cases hc : 0xFF < sum.toNat <;> by_cases hz : sum.toNat % 256 = 0 <;> interval_cases k <;> simp [hc, hz]

theorem flagBit_inj {f g : Flag} : flagBit f = flagBit g ↔ f = g := by cases f <;> cases g <;> decide

theorem queryFlag_setFlag_of_ne {f g : Flag} (h : f ≠ g) (sr : Byte) :
    queryFlag f (setFlag g sr) = queryFlag f sr := by
  rw [queryFlag_eq, queryFlag_eq, getLsbD_setFlag, decide_eq_false (flagBit_inj.not.2 h), Bool.false_or]

/-- Updates of different flags reach different bits. -/
theorem assignFlag_setFlag_comm {f g : Flag} (h : f ≠ g) (b : Bool) (sr : Byte) :
    assignFlag f b (setFlag g sr) = setFlag g (assignFlag f b sr) := by
  refine BitVec.eq_of_getLsbD_eq fun k _ => ?_
  rw [getLsbD_assignFlag, getLsbD_setFlag, getLsbD_setFlag, getLsbD_assignFlag]
  by_cases hk : k = flagBit f
  · have hg : flagBit f ≠ flagBit g := flagBit_inj.not.2 h
    simp [hk, hg]
  · simp [hk]

theorem setNZ_setFlag_interrupt (n : NegMode) (v sr : Byte) :
    setNZ n v (setFlag .interrupt sr) = setFlag .interrupt (setNZ n v sr) := by
  simp only [setNZ.eq_def, assignFlag_setFlag_comm (show Flag.negative ≠ .interrupt by decide),
    assignFlag_setFlag_comm (show Flag.zero ≠ .interrupt by decide)]

theorem setCZ_setFlag_interrupt (sum : BitVec 9) (sr : Byte) :
    setCZ sum (setFlag .interrupt sr) = setFlag .interrupt (setCZ sum sr) := by
  rw [setCZ, setCZ, assignFlag_setFlag_comm (by decide), assignFlag_setFlag_comm (by decide)]

theorem clearFlag_carry_setFlag_interrupt (sr : Byte) :
    clearFlag .carry (setFlag .interrupt sr) = setFlag .interrupt (clearFlag .carry sr) :=
  assignFlag_setFlag_comm (by decide) false sr

theorem setFlag_setFlag (f : Flag) (sr : Byte) : setFlag f (setFlag f sr) = setFlag f sr := by
  rw [setFlag, setFlag, BitVec.or_assoc, BitVec.or_self]

end Sys2Proof.Machine

open Sys2Proof.Machine in
/-- Settles O13: the two masks of SetNZ. -/
theorem negativeZeroUpdate : Obligations.NegativeZeroUpdate := fun v sr => ⟨setNZ_bit7 v sr, setNZ_never v sr⟩

open Sys2Proof Sys2Proof.Machine in
/-- Settles O14: SR is written in one of five ways, and each reaches the bits of its own flags. -/
theorem flagsChangedOnlyByTheirWriters : Obligations.FlagsChangedOnlyByTheirWriters := by
  intro i s t h
  obtain rfl := exec_eq_next_iff.1 h
  have hkept := handlerOf_sr_and params i.op i.reg (operandAddress params i.mode s) (afterResolve params i.mode s)
  have hcases := handlerOf_sr_cases params i.op i.reg (operandAddress params i.mode s) (afterResolve params i.mode s)
  rw [afterResolve_sr] at hkept hcases
  rw [execState]
  rcases hcases with ⟨hop, v, hsr⟩ | ⟨hop, sum, hsr⟩ | ⟨hop, hsr⟩ | ⟨hop, hsr⟩ | ⟨hop, hsr⟩ <;> rw [hsr] at hkept ⊢
  · have hzero : i.op ∈ [Op.ld, .pl, .and, .xor, .add] := List.mem_append_left [Op.add] hop
    have hbrk : (i.op == .brk) = false := by
      rw [beq_eq_false_iff_ne]; rintro heq; rw [heq] at hop; simp at hop
    simp only [getLsbD_setNZ]
    exact ⟨fun h => absurd rfl h, fun _ => hzero, fun _ => hop, by rw [hbrk, Bool.or_false]; rfl, hkept⟩
  · simp only [getLsbD_setCZ]
    simpa [hop] using hkept
  · simp only [getLsbD_clearFlag]
    simpa [hop, flagBit] using hkept
  · simp only [getLsbD_setFlag]
    simpa [hop, flagBit] using hkept
  · simp [hop]
end

section
/-! N at `NEG_MODE = NEVER` (10_state.md rule R18), and I, which gates nothing (60_exceptions.md rule R173): two runs of
a handler, one with I set beforehand, agree but for I and the status byte a trap pushes. -/

namespace Sys2Proof.Machine

/-! ## N at NEVER -/

theorem handlerOf_negative_of_never {p : Params} (hp : p.negMode = .never) {op : Op} {r : Reg} {ea : Addr} {s : State}
    (hs : s.sr.getLsbD 7 = false) : (handlerOf p op r ea s).sr.getLsbD 7 = false := by
  rcases handlerOf_sr_cases p op r ea s with ⟨-, v, h⟩ | ⟨-, sum, h⟩ | ⟨-, h⟩ | ⟨-, h⟩ | ⟨-, h⟩ <;> rw [h]
  · rw [hp, getLsbD_setNZ]; rfl
  · rw [getLsbD_setCZ]; exact hs
  · rw [getLsbD_clearFlag, hs, Bool.and_false]
  · rw [getLsbD_setFlag, hs]; rfl
  · exact hs

/-! ## Setting I -/

/-- The state with I set. -/
def State.setI (s : State) : State := s.setSr (setFlag .interrupt s.sr)

@[simp] theorem State.setI_sr (s : State) : s.setI.sr = setFlag .interrupt s.sr := rfl
@[simp] theorem State.setI_sp (s : State) : s.setI.sp = s.sp := rfl
@[simp] theorem State.setI_pc (s : State) : s.setI.pc = s.pc := rfl
@[simp] theorem State.setI_hc (s : State) : s.setI.hc = s.hc := rfl
@[simp] theorem State.setI_reg (s : State) (r : Reg) : s.setI.reg r = s.reg r := s.setSr_reg r _
@[simp] theorem State.setI_memRead (s : State) (a : Addr) : s.setI.memRead a = s.memRead a := rfl

/-- Every handler but the trap's commutes with setting I: no flag it queries or assigns is I. -/
theorem handlerOf_setI (p : Params) {op : Op} (hop : op ≠ .brk) (r : Reg) (ea : Addr) (s : State) :
    handlerOf p op r ea s.setI = (handlerOf p op r ea s).setI := by
  have hquery {f : Flag} (hf : f ≠ .interrupt) : queryFlag f (setFlag .interrupt s.sr) = queryFlag f s.sr :=
    queryFlag_setFlag_of_ne hf s.sr
  cases op with
  | brk => exact absurd rfl hop
  | ld | and | xor =>
    simp only [handlerOf_ld, handlerOf_and, handlerOf_xor, State.setI_sr, setNZ_setFlag_interrupt, State.setI_reg]
    cases r <;> rfl
  | pl =>
    simp only [handlerOf_pl, State.setI_sr, setNZ_setFlag_interrupt]
    cases r <;> rfl
  | add =>
    simp only [handlerOf_add, State.setI_sr, hquery (f := .carry) (by decide), setCZ_setFlag_interrupt, State.setI_reg]
    cases r <;> rfl
  | clc =>
    simp only [handlerOf_clc, State.setI_sr, clearFlag_carry_setFlag_interrupt]
    rfl
  | jpc => simp only [handlerOf_jpc, State.setI_sr, hquery (f := .carry) (by decide)]; rfl
  | jpz => simp only [handlerOf_jpz, State.setI_sr, hquery (f := .zero) (by decide)]; rfl
  | jpn => simp only [handlerOf_jpn, State.setI_sr, hquery (f := .negative) (by decide)]; rfl
  | jmp => rfl
  | st | ph => cases r <;> rfl

/-- The pushed status byte is the only byte of a trap that shows SR (R110). -/
theorem State.takeTrap_memRead_setI (s : State) {a : Addr} (h : a ≠ stackAddr (s.sp - 2)) :
    s.setI.takeTrap.memRead a = s.takeTrap.memRead a := by
  rw [State.takeTrap_memRead, State.takeTrap_memRead]
  simp only [State.setI_sp, State.setI_pc, State.setI_memRead, h, if_false]

/-- `t'` is `t` with I set, but for the bytes at the addresses in `hidden`. -/
structure SameButI (hidden : Addr → Prop) (t t' : State) : Prop where
  sr : t'.sr = setFlag .interrupt t.sr
  reg : ∀ q : Reg, t'.reg q = t.reg q
  pc : t'.pc = t.pc
  sp : t'.sp = t.sp
  hc : t'.hc = t.hc
  cm : t'.cm = t.cm
  memRead : ∀ a : Addr, ¬hidden a → t'.memRead a = t.memRead a

theorem State.setI_sameButI (hidden : Addr → Prop) (t : State) : SameButI hidden t t.setI where
  sr := rfl
  reg := t.setI_reg
  pc := rfl
  sp := rfl
  hc := rfl
  cm := rfl
  memRead _ _ := rfl

theorem State.takeTrap_sameButI (s : State) :
    SameButI (· = stackAddr (s.sp - 2)) s.takeTrap s.setI.takeTrap where
  sr := by rw [State.takeTrap_sr, State.takeTrap_sr, State.setI_sr]
  reg q := by rw [State.takeTrap_reg, State.takeTrap_reg, State.setI_reg]
  pc := by rw [State.takeTrap_pc, State.takeTrap_pc]; rfl
  sp := by rw [State.takeTrap_sp, State.takeTrap_sp, State.setI_sp]
  hc := by rw [State.takeTrap_hc, State.takeTrap_hc, State.setI_hc]
  cm := rfl
  memRead _ h := s.takeTrap_memRead_setI h

theorem handlerOf_sameButI (p : Params) (op : Op) (r : Reg) (ea : Addr) (s : State) :
    SameButI (fun a => op = .brk ∧ a = stackAddr (s.sp - 2)) (handlerOf p op r ea s) (handlerOf p op r ea s.setI) := by
  by_cases hop : op = .brk
  · subst hop
    simpa using s.takeTrap_sameButI
  · rw [handlerOf_setI p hop]
    exact State.setI_sameButI _ _

theorem afterResolve_setI (p : Params) (m : Mode) (s : State) :
    afterResolve p m s.setI = (afterResolve p m s).setI := by
  cases m <;> rfl

theorem operandAddress_setI (p : Params) (m : Mode) (s : State) : operandAddress p m s.setI = operandAddress p m s := by
  cases m <;> rfl

theorem execState_sameButI (i : Instr) (s : State) :
    SameButI (fun a => i.op = .brk ∧ a = stackAddr (s.sp - 2)) (execState i s) (execState i s.setI) := by
  have h := handlerOf_sameButI params i.op i.reg (operandAddress params i.mode s) (afterResolve params i.mode s)
  rw [afterResolve_sp, ← afterResolve_setI] at h
  rwa [execState, execState, operandAddress_setI]

end Sys2Proof.Machine

open Sys2Proof Sys2Proof.Machine in
/-- Settles O15: no handler sets N at NEVER, and JPN with N clear leaves the PC where the resolver put it. -/
theorem negativeStaysClearAtNever : Obligations.NegativeStaysClearAtNever := by
  intro p s t hp hs h
  obtain ⟨op, m, r, hfields, rfl⟩ := stepWith_eq_next h
  refine ⟨handlerOf_negative_of_never hp (by rw [afterResolve_sr]; exact hs), fun m' r' hjpn => ?_⟩
  obtain ⟨rfl, rfl, rfl⟩ : op = .jpn ∧ m = m' ∧ r = r' := by simpa using hfields.symm.trans hjpn
  have hquery : queryFlag .negative s.sr = false := (queryFlag_eq .negative s.sr).trans hs
  simp [runForm, hquery]

open Sys2Proof Sys2Proof.Machine in
/-- Settles O16: fetch and resolver do not look at SR, and the handlers give states that are the same but for I. -/
theorem interruptFlagGatesNothing : Obligations.InterruptFlagGatesNothing := by
  intro s t h
  obtain rfl := step_eq_next_iff.1 h
  obtain ⟨hsr, hreg, hpc, hsp, hhc, hcm, hmem⟩ :=
    execState_sameButI (decode (s.memRead s.pc)) (s.setPc (s.pc + 1))
  refine ⟨stepState s.setI, step_eq_stepState _, hsr, hreg, hpc, hsp, hhc, hcm, fun a ha => hmem a ?_⟩
  exact fun hidden => ha hidden.1 hidden.2
end

section
/-! What a whole instruction does to the PC (10_state.md rule R13), the registers (R10), SP (R23), and to memory and the
Change Map (20_memory.md rule R46), from the handler equations. -/

namespace Sys2Proof.Machine

/-! ## PC -/

/-- The default displacement is the operand byte, zero-extended (D7). -/
@[simp] theorem displacement_params (ea : Addr) (s : State) :
    displacement params ea s = (s.memRead ea).setWidth 16 := rfl

/-- A trap's frame is nowhere near the interrupt vector (R58). -/
theorem State.takeTrap_memRead_irq (s : State) :
    s.takeTrap.memRead 0xFFFE = s.memRead 0xFFFE ∧ s.takeTrap.memRead 0xFFFF = s.memRead 0xFFFF := by
  have hlow (sp : Byte) : (0xFFFE : Addr) ≠ stackAddr sp := (stackAddr_ne_irq sp).1
  have hhigh (sp : Byte) : (0xFFFF : Addr) ≠ stackAddr sp := (stackAddr_ne_irq sp).2
  simp only [State.takeTrap_memRead, hlow, hhigh, if_false, and_self]

/-- So the vector reads after the trap as it did when the PC was loaded from it. -/
theorem State.takeTrap_pc_eq_append (s : State) :
    s.takeTrap.pc = s.takeTrap.memRead 0xFFFF ++ s.takeTrap.memRead 0xFFFE := by
  rw [s.takeTrap_memRead_irq.1, s.takeTrap_memRead_irq.2, State.takeTrap_pc]
  rfl

/-! ## Registers -/

theorem State.setPc_setReg (s : State) (q : Reg) (v : Byte) (a : Addr) :
    (s.setReg q v).setPc a = (s.setPc a).setReg q v := by cases q <;> rfl

theorem State.setHc_setReg (s : State) (q : Reg) (v : Byte) (n : Nat) :
    (s.setReg q v).setHc n = (s.setHc n).setReg q v := by cases q <;> rfl

theorem State.setSp_setReg (s : State) (q : Reg) (v b : Byte) :
    (s.setReg q v).setSp b = (s.setSp b).setReg q v := by cases q <;> rfl

theorem State.setSr_setReg (s : State) (q : Reg) (v b : Byte) :
    (s.setReg q v).setSr b = (s.setSr b).setReg q v := by cases q <;> rfl

theorem State.memWrite_setReg (s : State) (q : Reg) (v : Byte) (a : Addr) (b : Byte) :
    (s.setReg q v).memWrite a b = (s.memWrite a b).setReg q v := by cases q <;> rfl

theorem State.push_setReg (s : State) (q : Reg) (v b : Byte) :
    (s.setReg q v).push b = (s.push b).setReg q v := by cases q <;> rfl

theorem State.takeTrap_setReg (s : State) (q : Reg) (v : Byte) :
    (s.setReg q v).takeTrap = s.takeTrap.setReg q v := by cases q <;> rfl

/-- The later write to a register is the one that stays. -/
@[simp] theorem State.setReg_setReg_same (s : State) (r : Reg) (v w : Byte) :
    (s.setReg r v).setReg r w = s.setReg r w := by cases r <;> rfl

theorem State.setReg_setReg_comm (s : State) {q r : Reg} (h : q ≠ r) (v w : Byte) :
    (s.setReg q v).setReg r w = (s.setReg r w).setReg q v := by
  cases q <;> cases r <;> simp_all [State.setReg]

theorem afterResolve_setReg (p : Params) (m : Mode) (s : State) (q : Reg) (v : Byte) :
    afterResolve p m (s.setReg q v) = (afterResolve p m s).setReg q v := by
  rw [afterResolve_eq, afterResolve_eq, State.setReg_pc, State.setPc_setReg, State.setHc_setReg]

theorem operandAddress_setReg (p : Params) (m : Mode) (s : State) (q : Reg) (v : Byte) :
    operandAddress p m (s.setReg q v) = operandAddress p m s := by
  cases m <;> cases q <;> rfl

/-- A register that a handler does not read is carried along, unless the handler overwrites it (R10). -/
theorem handlerOf_setReg (p : Params) {op : Op} {r q : Reg} (h : q ≠ r ∨ op ∉ [Op.st, .add, .ph, .and, .xor])
    (ea : Addr) (s : State) (v : Byte) : handlerOf p op r ea (s.setReg q v) =
      if q = r ∧ op ∈ [Op.ld, .pl] then handlerOf p op r ea s else (handlerOf p op r ea s).setReg q v := by
  by_cases hq : q = r
  · subst hq
    cases op with
    | st | add | ph | and | xor => simp at h
    | ld | pl => simp [State.setSr_setReg, State.setSp_setReg]
    | brk => simp [State.takeTrap_setReg]
    | jmp | jpc | jpz | jpn => simp [State.setPc_setReg, displacement.eq_def]
    | clc => simp [State.setSr_setReg]
  · have hr : r ≠ q := Ne.symm hq
    have hread : (s.setReg q v).reg r = s.reg r := by rw [State.reg_setReg, if_neg hr]
    cases op with
    | ld | add | pl | and | xor =>
      simp [hq, hread, State.setSr_setReg, State.setSp_setReg, State.setReg_setReg_comm _ hq]
    | st => simp [hread, State.memWrite_setReg]
    | ph => simp [hread, State.push_setReg]
    | brk => simp [State.takeTrap_setReg]
    | jmp | jpc | jpz | jpn => simp [State.setPc_setReg, displacement.eq_def]
    | clc => simp [State.setSr_setReg]

/-! ## Memory and the Change Map -/

/-- The addresses a handler stores to. -/
def storedAddrs (op : Op) (ea : Addr) (sp : Byte) : List Addr :=
  match op with
  | .st => [ea]
  | .ph => [stackAddr sp]
  | .brk => [stackAddr sp, stackAddr (sp - 1), stackAddr (sp - 2)]
  | _ => []

theorem TracksWrites.lookup_of_not_mem {written : List Addr} {s t : State} (h : TracksWrites written s t) {a : Addr}
    (ha : a ∉ written) : lookupCell a.toNat t.cm = lookupCell a.toNat s.cm := by
  rw [h a, if_neg ha]

/-- Any other byte, and its entry in the Change Map, is as before (R46). -/
theorem handlerOf_of_not_stored (p : Params) (op : Op) (r : Reg) (ea : Addr) (s : State) {a : Addr}
    (h : a ∉ storedAddrs op ea s.sp) : (handlerOf p op r ea s).memRead a = s.memRead a ∧
      lookupCell a.toNat (handlerOf p op r ea s).cm = lookupCell a.toNat s.cm := by
  by_cases hop : op ∈ [Op.brk, .st, .ph]
  · simp only [List.mem_cons, List.not_mem_nil, or_false] at hop
    rcases hop with rfl | rfl | rfl
    · have hlookup := s.takeTrap_tracks.lookup_of_not_mem h
      simp only [storedAddrs, List.mem_cons, List.not_mem_nil, or_false, not_or] at h
      obtain ⟨hhigh, hlow, hstatus⟩ := h
      refine ⟨?_, hlookup⟩
      rw [handlerOf_brk, State.takeTrap_memRead, if_neg hhigh, if_neg hlow, if_neg hstatus]
    · exact ⟨s.memRead_memWrite_of_ne _ (List.ne_of_not_mem_cons h), (s.tracks_memWrite ea _).lookup_of_not_mem h⟩
    · exact ⟨s.memRead_push_of_ne_stackAddr _ (List.ne_of_not_mem_cons h), (s.tracks_push _).lookup_of_not_mem h⟩
  · obtain ⟨hmem, hcm⟩ := handlerOf_mem_cm_of_not_store p hop r ea s
    rw [State.memRead, State.memRead, hmem, hcm]
    exact ⟨rfl, rfl⟩

end Sys2Proof.Machine

open Sys2Proof Sys2Proof.Machine in
/-- Settles O28: the handler equation of each mnemonic, on the PC the resolver left. -/
theorem programCounterAfterEachInstruction : Obligations.ProgramCounterAfterEachInstruction := by
  intro s
  refine ⟨stepState s, step_eq_stepState s, ?pc, fun hop => ?saved⟩
  case pc =>
    cases hop : (decode (s.memRead s.pc)).op with
    | brk => rw [stepState, execState, hop]; exact State.takeTrap_pc_eq_append _
    | jpc | jpz | jpn => simp [stepState, execState, hop, queryFlag_eq, flagBit]
    | ld | st | add | jmp | ph | pl | and | xor | clc => simp [stepState, execState, hop]
  case saved =>
    have hsaved := State.takeTrap_savedPc (afterResolve params (decode (s.memRead s.pc)).mode (s.setPc (s.pc + 1)))
    rw [stepState, execState, hop]
    simpa using hsaved

open Sys2Proof Sys2Proof.Machine in
/-- Settles O43: read after write, the writers, the readers, and Reset. -/
theorem registersAreOrdinaryAndSelected : Obligations.RegistersAreOrdinaryAndSelected := by
  refine ⟨fun s r q v => s.reg_setReg r v q, fun i s t q h hne => ?written, fun i s t q v hread h => ?read,
    State.hostReset_reg⟩
  case written =>
    obtain rfl := exec_eq_next_iff.1 h
    by_contra hnot
    have hnot' : q ≠ i.reg ∨ i.op ∉ [Op.ld, .add, .pl, .and, .xor] := not_and_or.1 hnot
    exact hne ((handlerOf_reg_of_not_written _ _ _ _ hnot').trans (afterResolve_reg _ _ _ _))
  case read =>
    obtain rfl := exec_eq_next_iff.1 h
    rw [exec_eq_execState, execState, operandAddress_setReg, afterResolve_setReg, handlerOf_setReg _ hread, execState]

open Sys2Proof Sys2Proof.Machine in
/-- Settles O44: the handler equation of each mnemonic, on the SP the resolver kept. -/
theorem stackPointerMovesByStackInstructions : Obligations.StackPointerMovesByStackInstructions := by
  refine ⟨fun i s t h => ?_, State.hostReset_sp, stackAddr_toNat⟩
  obtain rfl := exec_eq_next_iff.1 h
  cases hop : i.op <;> simp [execState, hop]

open Sys2Proof Sys2Proof.Machine in
/-- Settles O45: an address outside `storedAddrs` keeps its byte and its entry. -/
theorem memoryChangesOnlyWhereStored : Obligations.MemoryChangesOnlyWhereStored := by
  intro i s t a h hchanged
  obtain rfl := exec_eq_next_iff.1 h
  have hstored : a ∈ storedAddrs i.op (operandAddress params i.mode s) s.sp := by
    by_contra hnot
    obtain ⟨hbyte, hentry⟩ := handlerOf_of_not_stored params i.op i.reg (operandAddress params i.mode s)
      (afterResolve params i.mode s) (by rwa [afterResolve_sp])
    rw [afterResolve_memRead] at hbyte
    rw [afterResolve_cm] at hentry
    exact hchanged.elim (fun hne => hne hbyte) (fun hne => hne hentry)
  cases hop : i.op with
  | brk | st | ph => simpa [storedAddrs, hop] using hstored
  | ld | add | jmp | jpc | jpz | jpn | pl | and | xor | clc => simp [storedAddrs, hop] at hstored
end

section
/-! The instructions with a result or a jump (42_load_store.md, 43_add.md, 44_jumps.md, 45_stack.md, 46_logic_flags.md):
each form is its handler's equation on the state the resolver left. -/

namespace Sys2Proof.Machine

/-! ## The forms of each mnemonic -/

/-- The forms the obligations list are those of the mnemonic, each in its mode, on the register given. -/
theorem fields_of_mem_loadForms (r : Reg) :
    ∀ f ∈ [(Instr.ldAbs r, Mode.absolute), (.ldImm r, .immediate), (.ldImp r, .implied)],
      f.1.op = .ld ∧ f.1.mode = f.2 ∧ f.1.reg = r := by
  simp [Instr.op, Instr.mode, Instr.reg]

theorem fields_of_mem_addForms (r : Reg) :
    ∀ f ∈ [(Instr.addAbs r, Mode.absolute), (.addImm r, .immediate), (.addImp r, .implied)],
      f.1.op = .add ∧ f.1.mode = f.2 ∧ f.1.reg = r := by
  simp [Instr.op, Instr.mode, Instr.reg]

theorem fields_of_mem_pullForms (r : Reg) :
    ∀ f ∈ [(Instr.plAbs r, Mode.absolute), (.plImm r, .immediate), (.plImp r, .implied)],
      f.1.op = .pl ∧ f.1.mode = f.2 ∧ f.1.reg = r := by
  simp [Instr.op, Instr.mode, Instr.reg]

/-- The mark tells AND from XOR. -/
theorem fields_of_mem_logicForms (r : Reg) :
    ∀ f ∈ [(Instr.andAbs r, Mode.absolute, true), (.andImm r, .immediate, true), (.andImp r, .implied, true),
      (.xorAbs r, .absolute, false), (.xorImm r, .immediate, false), (.xorImp r, .implied, false)],
      f.1.op = (if f.2.2 then .and else .xor) ∧ f.1.mode = f.2.1 ∧ f.1.reg = r := by
  simp [Instr.op, Instr.mode, Instr.reg]

/-- The number is the bit position of the flag tested (R14, R141 to R143). -/
theorem handler_of_mem_jumpIfForms (r : Reg) :
    ∀ f ∈ [(Instr.jpcAbs r, Mode.absolute, 0), (.jpcImm r, .immediate, 0), (.jpcImp r, .implied, 0),
      (.jpzAbs r, .absolute, 1), (.jpzImm r, .immediate, 1), (.jpzImp r, .implied, 1),
      (.jpnAbs r, .absolute, 7), (.jpnImm r, .immediate, 7), (.jpnImp r, .implied, 7)],
      ∃ flag : Flag, handlerOf params f.1.op f.1.reg = jumpIfHandler flag params ∧ flagBit flag = f.2.2 ∧
        f.1.mode = f.2.1 := by
  simp only [List.forall_mem_cons]
  exact ⟨⟨.carry, rfl, rfl, rfl⟩, ⟨.carry, rfl, rfl, rfl⟩, ⟨.carry, rfl, rfl, rfl⟩, ⟨.zero, rfl, rfl, rfl⟩,
    ⟨.zero, rfl, rfl, rfl⟩, ⟨.zero, rfl, rfl, rfl⟩, ⟨.negative, rfl, rfl, rfl⟩, ⟨.negative, rfl, rfl, rfl⟩,
    ⟨.negative, rfl, rfl, rfl⟩, by simp⟩

/-! ## The state after -/

/-- A result `v` in register `r` and the SR `sr`, from the state the resolver left: all else is as in `s`. -/
theorem afterResolve_setSr_setReg (m : Mode) (s : State) (r : Reg) (v sr : Byte) :
    let t := ((afterResolve params m s).setSr sr).setReg r v
    t.reg r = v ∧ OtherRegsKept [r] s t ∧ t.sr = sr ∧
      t.pc = s.pc + BitVec.ofNat 16 (operandBytes m) ∧ t.hc = operandBytes m ∧ t.sp = s.sp ∧
      SameMemory s t ∧ t.cm = s.cm := by
  refine ⟨by simp, fun q hq => ?_, by simp, by simp, by simp, by simp, fun a => by simp, by simp⟩
  rw [State.reg_setReg, if_neg (List.ne_of_not_mem_cons hq), State.setSr_reg, afterResolve_reg]

theorem execState_of_op_ld {i : Instr} (hop : i.op = .ld) (s : State) :
    execState i s = ((afterResolve params i.mode s).setSr
      (setNZ .bit7 (s.memRead (operandAddress params i.mode s)) s.sr)).setReg i.reg
        (s.memRead (operandAddress params i.mode s)) := by
  rw [execState, hop, handlerOf_ld, afterResolve_memRead, afterResolve_sr]
  rfl

theorem execState_of_op_and {i : Instr} (hop : i.op = .and) (s : State) :
    execState i s = ((afterResolve params i.mode s).setSr
      (setNZ .bit7 (s.reg i.reg &&& s.memRead (operandAddress params i.mode s)) s.sr)).setReg i.reg
        (s.reg i.reg &&& s.memRead (operandAddress params i.mode s)) := by
  rw [execState, hop, handlerOf_and, afterResolve_memRead, afterResolve_sr, afterResolve_reg]
  rfl

theorem execState_of_op_xor {i : Instr} (hop : i.op = .xor) (s : State) :
    execState i s = ((afterResolve params i.mode s).setSr
      (setNZ .bit7 (s.reg i.reg ^^^ s.memRead (operandAddress params i.mode s)) s.sr)).setReg i.reg
        (s.reg i.reg ^^^ s.memRead (operandAddress params i.mode s)) := by
  rw [execState, hop, handlerOf_xor, afterResolve_memRead, afterResolve_sr, afterResolve_reg]
  rfl

/-- The sum R130 takes, as a natural number. -/
def addTotal (m : Mode) (r : Reg) (s : State) : Nat :=
  (s.memRead (operandAddress params m s)).toNat + (s.reg r).toNat + (if s.sr.getLsbD 0 then 1 else 0)

theorem addSum_toNat_eq_addTotal (m : Mode) (r : Reg) (s : State) :
    (addSum (s.memRead (operandAddress params m s)) (s.reg r) (queryFlag .carry s.sr)).toNat = addTotal m r s := by
  rw [addSum_toNat, queryFlag_eq, flagBit, addTotal]
  cases s.sr.getLsbD 0 <;> rfl

theorem execState_of_op_add {i : Instr} (hop : i.op = .add) (s : State) :
    execState i s = ((afterResolve params i.mode s).setSr ((s.sr &&& 0xFC) |||
      (if 0xFF < addTotal i.mode i.reg s then 0x01 else 0x00) |||
        (if addTotal i.mode i.reg s % 256 = 0 then 0x02 else 0x00))).setReg i.reg
          (BitVec.ofNat 8 (addTotal i.mode i.reg s)) := by
  rw [execState, hop, handlerOf_add, afterResolve_memRead, afterResolve_sr, afterResolve_reg, setCZ_eq,
    ← addSum_toNat_eq_addTotal]
  rfl

/-- PL reads above SP, which the resolver does not move. -/
theorem execState_of_op_pl {i : Instr} (hop : i.op = .pl) (s : State) :
    execState i s = (((afterResolve params i.mode s).setSr
      (setNZ .bit7 (s.memRead (stackAddr (s.sp + 1))) s.sr)).setReg i.reg
        (s.memRead (stackAddr (s.sp + 1)))).setSp (s.sp + 1) := by
  rw [execState, hop, handlerOf_pl, State.setSp_setReg]
  simp only [afterResolve_memRead, afterResolve_sr, afterResolve_sp]
  rfl

end Sys2Proof.Machine

open Sys2Proof Sys2Proof.Machine in
/-- Settles O32: LD's result is the operand byte. -/
theorem loadReadsTheOperandByte : Obligations.LoadReadsTheOperandByte := by
  refine ⟨by decide, fun p r ea s hp => ?never, fun r s f hf => ?forms⟩
  case never =>
    refine ⟨?_, State.reg_setReg_same _ _ _⟩
    rw [loadHandler, State.setReg_sr, State.setSr_sr, hp, setNZ_never]
  case forms =>
    obtain ⟨hop, hmode, hreg⟩ := fields_of_mem_loadForms r f hf
    refine ⟨_, exec_eq_execState f.1 s, ?_⟩
    rw [execState_of_op_ld hop, hmode, hreg, setNZ_bit7]
    exact afterResolve_setSr_setReg _ _ _ _ _

open Sys2Proof Sys2Proof.Machine in
/-- Settles O34: ADD's result is the low byte of the exact sum, its flags are read from the sum. -/
theorem addSumsWithCarry : Obligations.AddSumsWithCarry := by
  refine ⟨by decide, fun r s f hf => ?_⟩
  obtain ⟨hop, hmode, hreg⟩ := fields_of_mem_addForms r f hf
  refine ⟨_, exec_eq_execState f.1 s, ?_⟩
  rw [execState_of_op_add hop, hmode, hreg]
  exact afterResolve_setSr_setReg _ _ _ _ _

open Sys2Proof Sys2Proof.Machine in
/-- Settles O37: the jump moves the PC the resolver left, and nothing else. -/
theorem conditionalJumpsAddTheOperandByte : Obligations.ConditionalJumpsAddTheOperandByte := by
  refine ⟨by decide, by decide, by decide, fun r s f hf => ?_⟩
  obtain ⟨flag, hhandler, hbit, hmode⟩ := handler_of_mem_jumpIfForms r f hf
  refine ⟨_, exec_eq_execState f.1 s, ?_⟩
  rw [execState, hhandler, jumpIfHandler_eq, queryFlag_eq, hbit, hmode]
  refine ⟨?_, by simp, fun q _ => by simp, by simp, by simp, fun a => by simp, by simp⟩
  rw [State.setPc_pc, displacement_params, afterResolve_sr, afterResolve_pc, afterResolve_memRead]

open Sys2Proof Sys2Proof.Machine in
/-- Settles O39: PL's result is the byte above SP. -/
theorem pullLoadsTheRegister : Obligations.PullLoadsTheRegister := by
  refine ⟨by decide, fun r s f hf => ?_⟩
  obtain ⟨hop, hmode, hreg⟩ := fields_of_mem_pullForms r f hf
  refine ⟨_, exec_eq_execState f.1 s, ?_⟩
  rw [execState_of_op_pl hop, hmode, hreg, setNZ_bit7]
  obtain ⟨hresult, hregs, hsr, hpc, hhc, -, hmem, hcm⟩ := afterResolve_setSr_setReg f.2 s r
    (s.memRead (stackAddr (s.sp + 1))) _
  exact ⟨(State.setSp_reg _ _ _).trans hresult, fun q hq => (State.setSp_reg _ _ _).trans (hregs q hq), hsr, rfl, hpc,
    hhc, hmem, hcm⟩

open Sys2Proof Sys2Proof.Machine in
/-- Settles O40: the mark of the form selects the operation. -/
theorem andXorCombineWithTheOperandByte : Obligations.AndXorCombineWithTheOperandByte := by
  refine ⟨by decide, by decide, fun r s f hf => ?_⟩
  obtain ⟨hop, hmode, hreg⟩ := fields_of_mem_logicForms r f hf
  refine ⟨_, exec_eq_execState f.1 s, ?_⟩
  cases hmark : f.2.2 <;> rw [hmark] at hop
  · rw [execState_of_op_xor hop, hmode, hreg, setNZ_bit7]
    exact afterResolve_setSr_setReg _ _ _ _ _
  · rw [execState_of_op_and hop, hmode, hreg, setNZ_bit7]
    exact afterResolve_setSr_setReg _ _ _ _ _

open Sys2Proof Sys2Proof.Machine in
/-- Settles O42: the pull reads back the pushed byte, at the SP the push left one below. -/
theorem pushThenPullCopiesARegister : Obligations.PushThenPullCopiesARegister := by
  intro a b s
  obtain ⟨-, hpush⟩ := pushStoresTheRegister
  obtain ⟨-, hpull⟩ := pullLoadsTheRegister
  obtain ⟨t, hpushed, hbyte, -, -, hsp, hregs, hsr, -, -⟩ := hpush a s (.phImp a, .implied) (by simp)
  obtain ⟨u, hpulled, hresult, hregs', hsr', hsp', -⟩ := hpull b t (.plImp b, .implied) (by simp)
  have hback : t.sp + 1 = s.sp := by rw [hsp]; exact BitVec.sub_add_cancel s.sp 1
  rw [hback] at hresult hsr' hsp'
  rw [hbyte] at hresult hsr'
  rw [hsr] at hsr'
  exact ⟨t, u, hpushed, hpulled, hresult, fun q hq => (hregs' q hq).trans (hregs q List.not_mem_nil), hsp', hsr'⟩
end

section
/-! Trap entry (41_brk.md rule R110) as the instructions BRK and ILLEGAL take it, nested traps (60_exceptions.md rule
R177), and a stored byte that is fetched next (20_memory.md rule R53). -/

namespace Sys2Proof.Machine

/-! ## One trap -/

/-- The frame: the PC above the saved one's low byte, SR below both (R110). -/
theorem State.takeTrap_frame (s : State) :
    s.takeTrap.memRead (stackAddr s.sp) = (s.pc + 1).extractLsb' 8 8 ∧
      s.takeTrap.memRead (stackAddr (s.sp - 1)) = (s.pc + 1).extractLsb' 0 8 ∧
      s.takeTrap.memRead (stackAddr (s.sp - 2)) = s.sr := by
  obtain ⟨hhigh_low, hhigh_status, hlow_status⟩ := stackAddr_frame s.sp
  refine ⟨?_, ?_, ?_⟩
  · rw [State.takeTrap_memRead, if_pos rfl]
  · rw [State.takeTrap_memRead, if_neg hhigh_low.symm, if_pos rfl]
  · rw [State.takeTrap_memRead, if_neg hhigh_status.symm, if_neg hlow_status.symm, if_pos rfl]

theorem State.takeTrap_memRead_of_not_mem (s : State) {a : Addr}
    (h : a ∉ [stackAddr s.sp, stackAddr (s.sp - 1), stackAddr (s.sp - 2)]) : s.takeTrap.memRead a = s.memRead a :=
  (handlerOf_of_not_stored params .brk .r0 0 s h).1

/-- ILLEGAL takes the operand bytes of Absolute (R78). -/
theorem fields_of_mem_breakForms (r : Reg) (raw : Byte) :
    ∀ f ∈ [(Instr.brkAbs r, 2), (.brkImm r, 1), (.brkImp r, 0), (.illegal raw, 2)],
      f.1.op = .brk ∧ operandBytes f.1.mode = f.2 := by
  simp [Instr.op, Instr.mode, operandBytes]

theorem execState_of_op_brk {i : Instr} (hop : i.op = .brk) (s : State) :
    execState i s = (afterResolve params i.mode s).takeTrap := by
  rw [execState, hop, handlerOf_brk]

/-! ## Nested traps -/

/-- Each trap takes three bytes of the page, modulo 256. -/
theorem iterate_takeTrap_sp (n : Nat) (s : State) :
    (State.takeTrap^[n] s).sp = s.sp - BitVec.ofNat 8 (3 * n) := by
  induction n generalizing s with
  | zero => simp
  | succ n ih =>
    rw [Function.iterate_succ_apply, ih, State.takeTrap_sp]
    bv_omega

/-- A byte of the page outlives as many traps as fit between SP and it. -/
theorem memRead_iterate_takeTrap {n : Nat} {s : State} {q : Byte} (h : 3 * n ≤ (s.sp - q).toNat) :
    (State.takeTrap^[n] s).memRead (stackAddr q) = s.memRead (stackAddr q) := by
  induction n generalizing s with
  | zero => rfl
  | succ n ih =>
    have hoff : stackAddr q ∉ [stackAddr s.sp, stackAddr (s.sp - 1), stackAddr (s.sp - 2)] := by
      simp only [List.mem_cons, List.not_mem_nil, or_false, stackAddr_inj]
      bv_omega
    have hfits : 3 * n ≤ (s.takeTrap.sp - q).toNat := by
      rw [State.takeTrap_sp]
      bv_omega
    rw [Function.iterate_succ_apply, ih hfits, State.takeTrap_memRead_of_not_mem _ hoff]

/-- However many traps are taken, the next one goes to the same vector. -/
theorem iterate_takeTrap_readWord_irq (n : Nat) (s : State) :
    (State.takeTrap^[n] s).readWord 0xFFFE 0xFFFF = s.readWord 0xFFFE 0xFFFF := by
  induction n generalizing s with
  | zero => rfl
  | succ n ih =>
    rw [Function.iterate_succ_apply, ih, State.readWord, s.takeTrap_memRead_irq.1, s.takeTrap_memRead_irq.2,
      State.readWord]

theorem iterate_takeTrap_succ_pc (n : Nat) (s : State) :
    (State.takeTrap^[n + 1] s).pc = s.readWord 0xFFFE 0xFFFF := by
  rw [Function.iterate_succ_apply', State.takeTrap_pc]
  exact iterate_takeTrap_readWord_irq n s

/-- Setting I again changes nothing. -/
theorem iterate_takeTrap_succ_sr (n : Nat) (s : State) :
    (State.takeTrap^[n + 1] s).sr = setFlag .interrupt s.sr := by
  induction n generalizing s with
  | zero => exact State.takeTrap_sr s
  | succ n ih => rw [Function.iterate_succ_apply, ih, State.takeTrap_sr, setFlag_setFlag]

/-- The statement's fold over a range is an iteration. -/
theorem foldl_range_takeTrap (n : Nat) (s : State) :
    (List.range n).foldl (fun u _ => u.takeTrap) s = State.takeTrap^[n] s := by
  rw [List.foldl_const, List.length_range]

/-! ## Storing the next instruction -/

/-- Each form stores its register, ST at the operand address and PH at the stack's. -/
theorem fields_of_mem_storingForms (r : Reg) (s : State) :
    ∀ f ∈ [(Instr.stAbs r, operandAddress params .absolute s), (.stImp r, 0x0000), (.phAbs r, stackAddr s.sp),
      (.phImm r, stackAddr s.sp), (.phImp r, stackAddr s.sp)],
      f.1.reg = r ∧ (f.1.op = .st ∧ f.2 = operandAddress params f.1.mode s ∨ f.1.op = .ph ∧ f.2 = stackAddr s.sp) := by
  simp [Instr.op, Instr.mode, Instr.reg]

end Sys2Proof.Machine

open Sys2Proof Sys2Proof.Machine in
/-- Settles O30: trap entry, on the PC the resolver left. -/
theorem breakTakesTheTrap : Obligations.BreakTakesTheTrap := by
  refine ⟨by decide, fun b => decode_of_illegalByte, fun r raw s f hf => ?_⟩
  obtain ⟨hop, hbytes⟩ := fields_of_mem_breakForms r raw f hf
  refine ⟨_, exec_eq_execState f.1 s, ?_⟩
  rw [execState_of_op_brk hop, ← hbytes]
  have hframe := (afterResolve params f.1.mode s).takeTrap_frame
  have hothers (a : Addr) := (afterResolve params f.1.mode s).takeTrap_memRead_of_not_mem (a := a)
  have htracks := (afterResolve params f.1.mode s).takeTrap_tracks
  simp only [TracksWrites, afterResolve_sp, afterResolve_pc, afterResolve_sr, afterResolve_memRead, afterResolve_cm]
    at hframe hothers htracks
  obtain ⟨hhigh, hlow, hstatus⟩ := hframe
  refine ⟨fun q _ => ?regs, ?sr, ?sp, ?hc, ?pc, hhigh, hlow, hstatus, hothers, htracks⟩
  case regs => rw [State.takeTrap_reg, afterResolve_reg]
  case sr => rw [State.takeTrap_sr, afterResolve_sr]; rfl
  case sp => rw [State.takeTrap_sp, afterResolve_sp]
  case hc => rw [State.takeTrap_hc, afterResolve_hc]
  case pc =>
    rw [State.takeTrap_pc, State.readWord, afterResolve_memRead, afterResolve_memRead]
    rfl

open Sys2Proof Sys2Proof.Machine in
/-- Settles O23: the 84 traps after the first take 252 bytes and stay below its frame; the 86th starts one above the
first's SP, so that it lays its low byte and its SR over the first frame's PC. -/
theorem eightySixthTrapOverwritesOldestFrame : Obligations.EightySixthTrapOverwritesOldestFrame := by
  intro s
  refine ⟨fun k hk t ht => ?intact, fun t ht => ?overwritten⟩ <;> rw [foldl_range_takeTrap] at ht <;> subst ht
  case intact =>
    obtain ⟨hhigh, hlow, hstatus⟩ := s.takeTrap_frame
    have hkept {q : Byte} (hq : 252 ≤ (s.takeTrap.sp - q).toNat) :
        (State.takeTrap^[k + 1] s).memRead (stackAddr q) = s.takeTrap.memRead (stackAddr q) :=
      memRead_iterate_takeTrap (n := k) (s := s.takeTrap) (le_trans (by omega) hq)
    rw [State.takeTrap_sp] at hkept
    refine ⟨iterate_takeTrap_sp (k + 1) s, ?_, ?_, ?_⟩
    · rw [hkept (by bv_omega), hhigh]
    · rw [hkept (by bv_omega), hlow]
    · rw [hkept (by bv_omega), hstatus]
  case overwritten =>
    obtain ⟨-, hlow, hstatus⟩ := (State.takeTrap^[85] s).takeTrap_frame
    have hsp : (State.takeTrap^[85] s).sp = s.sp - BitVec.ofNat 8 (3 * 85) := iterate_takeTrap_sp 85 s
    have hfirst : (State.takeTrap^[85] s).sp - 1 = s.sp := by rw [hsp]; bv_omega
    have hsecond : (State.takeTrap^[85] s).sp - 2 = s.sp - 1 := by rw [hsp]; bv_omega
    rw [hfirst, iterate_takeTrap_succ_pc 84] at hlow
    rw [hsecond, iterate_takeTrap_succ_sr 84] at hstatus
    rw [Function.iterate_succ_apply']
    exact ⟨hlow, hstatus⟩

open Sys2Proof Sys2Proof.Machine in
/-- Settles O24: the next step decodes the byte at the PC, which is the one stored. -/
theorem storedByteIsFetchedNext : Obligations.StoredByteIsFetchedNext := by
  intro r s t f hf h hpc
  have hstored : t.memRead f.2 = s.reg r := by
    obtain ⟨hreg, ⟨hop, haddr⟩ | ⟨hop, haddr⟩⟩ := fields_of_mem_storingForms r s f hf
    · obtain rfl := Host.Outcome.next.inj ((exec_of_op_st hop s).symm.trans h)
      rw [haddr, hreg, State.setHc_memRead, State.setPc_memRead, State.memRead_memWrite_same]
    · obtain rfl := Host.Outcome.next.inj ((exec_of_op_ph hop s).symm.trans h)
      rw [haddr, hreg, State.setHc_memRead, State.setPc_memRead, State.memRead_push_same]
  rw [step_eq_exec, hpc, hstored]
end
